-- ==== Sys2Proof/Word.lean ====
section
/-!
DEFINITION. The two widths of the unit: a byte of 8 bits and an address of 16 bits (00_scope.md R6, R13).
-/

namespace Sys2Proof

/-- A byte: the width of memory cells, `A`, `X`, `Y` and `SP` (R6, R10 to R12, R19). -/
abbrev Byte := BitVec 8

/-- A 16-bit value: the width of `PC` and of every address an instruction forms (R13, R32). -/
abbrev Addr := BitVec 16

end Sys2Proof
end

