-- ==== Sys2Proof/Config.lean ====
section
/-!
DEFINITION. The parameters fixed when a unit is created (00_scope.md R5).
A unit carries them in its state, unchanged for as long as it exists, so that a statement about every state is a
statement about every setting of them.
-/

namespace Sys2Proof

/-- The three parameters of R5. -/
structure Config where
  /-- `MEMSIZE`: addresses 0 to `memSize - 1` exist (R31); any natural number (D13). -/
  memSize : Nat
  /-- `INDY_WRAP8`: the indirect-indexed sum is cut to 8 bits (R85, D3). -/
  indyWrap8 : Bool
  /-- `STRICT_OPCODES`: an unassigned opcode stops the run (R107, D6). -/
  strictOpcodes : Bool
  deriving DecidableEq, Repr

/-- The parameters of the unit in `State.reset`: the spec's defaults `false` and `false` (R5), and the size that makes
every 16-bit address exist.
DESIGN CHOICE (log 2): the spec leaves `MEMSIZE` to the caller of `create`. Unsafe for a claim about this one value only. -/
def Config.default : Config :=
  { memSize := 65536, indyWrap8 := false, strictOpcodes := false }

end Sys2Proof
end

