-- ==== Sys2Proof/Machine/State.lean ====
section
/-!
DEFINITION. Everything the spec gives the machine, as plain data (10_state.md), the reasons a step can stop, and the state
right after reset.
-/

namespace Sys2Proof.Machine

/-- The four 8-bit registers, by name (R10 to R12). -/
inductive Reg8 where
  | a | x | y | sp
  deriving DecidableEq, Repr

/-- The seven flags, by the letters of R15. -/
inductive Flag where
  | c | z | i | d | b | v | n
  deriving DecidableEq, Repr

/-- The seven independent one-bit flags. There is no packed status byte and no order among them (R15, R16). -/
structure Flags where
  /-- Carry: inert (R18). -/
  c : Bool
  /-- Zero: written by every load (R17). -/
  z : Bool
  /-- Interrupt-disable: inert, masks nothing (R18). -/
  i : Bool
  /-- Decimal-mode: inert (R18). -/
  d : Bool
  /-- Break-command: inert (R18). -/
  b : Bool
  /-- Overflow: inert (R18). -/
  v : Bool
  /-- Negative: written by every load (R17). -/
  n : Bool
  deriving DecidableEq, Repr

/-- The lifecycle state (R21, R125). The run loop's two counters exist only while a run is under way (R20, R25), so they
stand in `running`.
DESIGN CHOICE (the spec's own, R72, D7; log 7): they are unbounded. Unsafe beyond the range of the real counters. -/
inductive Lifecycle where
  | uninitialized
  | reset
  | running (remaining : Int) (completed : Nat)
  | haltedByBudget
  | destroyed
  deriving DecidableEq, Repr

/-- What the host can command of a unit that is not running (R125). -/
inductive HostOp where
  /-- `reset` (R127). -/
  | reset
  /-- `run(cycle_budget)`; the budget is any integer (R63, R70, D20). -/
  | run (budget : Int)
  /-- `destroy` (R130). -/
  | destroy
  /-- Read a memory byte (R131). -/
  | readMem (addr : Nat)
  /-- Write a memory byte (R131). -/
  | writeMem (addr : Nat) (v : Byte)
  /-- Read `A`, `X`, `Y` or `SP` (R132). -/
  | readReg (r : Reg8)
  /-- Write `A`, `X`, `Y` or `SP` (R132). -/
  | writeReg (r : Reg8) (v : Byte)
  /-- Read `PC` (R132). -/
  | readPC
  /-- Write `PC` (R132). -/
  | writePC (v : Addr)
  /-- Read one flag (R132). -/
  | readFlag (f : Flag)
  /-- Write one flag (R132). -/
  | writeFlag (f : Flag) (v : Bool)
  deriving DecidableEq, Repr

/-- A value delivered to the host. -/
inductive HostValue where
  /-- What `run` returns: `completed` (R68). -/
  | total (completed : Nat)
  /-- A memory byte or an 8-bit register. -/
  | byte (v : Byte)
  /-- The program counter. -/
  | word (v : Addr)
  /-- A flag. -/
  | bit (v : Bool)
  deriving DecidableEq, Repr

/-- Memory contents (R19): the nonzero bytes, by strictly rising address. An unlisted address reads 0x00, which is what
`reset` writes to every byte (R25). -/
abbrev Memory := List Host.Cell

/-- The whole state of the unit. -/
structure State where
  /-- The parameters fixed at `create` (R5). -/
  cfg : Config
  /-- The accumulator (R10). -/
  a : Byte
  /-- The index register X (R11). -/
  x : Byte
  /-- The index register Y (R11). -/
  y : Byte
  /-- The stack pointer, inert storage (R12). -/
  sp : Byte
  /-- The program counter (R13). -/
  pc : Addr
  /-- The flags (R15). -/
  flags : Flags
  /-- The memory the unit owns (R19). -/
  mem : Memory
  /-- The lifecycle state, with the counters of a run under way (R20, R21). -/
  lifecycle : Lifecycle
  /-- The commands the host has still to issue, the next one first.
  DESIGN CHOICE (log 4): the model's own field; the spec describes the commands and no queue. Safe. -/
  host : List HostOp
  /-- The value the command completed last delivered, if it delivered one.
  DESIGN CHOICE (log 5): the model's own field, for the values of R68, R131 and R132. Safe. -/
  answer : Option HostValue
  deriving DecidableEq, Repr

/-- Why the machine stops: the model outcomes of R8 that are faults. Neither is an exception of the hardware (R110). -/
inductive Fault where
  /-- An access at or above `MEMSIZE` (R35). Raised by a fetch, a pointer read, a data read or a host access.
  Safe: the software would go on with unrelated host memory (D4). -/
  | memOutOfRange (addr : Nat)
  /-- An unassigned opcode in strict mode: the byte, its address, and the state it leaves, in which `PC` has advanced and
  the counters have not changed (R107). Raised by `execUnassigned`. Safe (D6). -/
  | illegalOpcode (op : Byte) (addr : Addr) (left : State)
  deriving DecidableEq, Repr

/-- Why the machine refuses. -/
inductive Refusal where
  /-- An instruction without a meaning. Raised by no arm: every instruction has its meaning. Safe. -/
  | notModelled (mnemonic : String)
  /-- `run` or a host read before the first `reset` (R26, R128). Raised by a host command. Safe (D5). -/
  | uninitialized
  /-- Any command after `destroy` (R130). Raised by a host command. Safe (D17). -/
  | destroyed
  /-- A command while a run is under way, which R125 calls impossible. Raised by `State.perform` alone: `step` takes no
  command then (R133). Safe. -/
  | hostExcluded
  deriving DecidableEq, Repr

/-- All seven flags 0 (R25). -/
def Flags.allClear : Flags :=
  { c := false, z := false, i := false, d := false, b := false, v := false, n := false }

/-- The state after `reset` for any parameters: the table of R25. -/
def State.resetWith (cfg : Config) : State :=
  { cfg := cfg, a := 0x00#8, x := 0x00#8, y := 0x00#8, sp := 0x00#8, pc := 0x0000#16, flags := Flags.allClear
    mem := [], lifecycle := .reset, host := [], answer := none }

/-- The machine right after reset (R25), with the parameters of `Config.default` and no command to come. -/
def State.reset : State := State.resetWith Config.default

end Sys2Proof.Machine
end

