-- ==== Sys2Proof/Machine/Flags.lean ====
section
/-!
DEFINITION. The flag computations. There is one, `SetZN` (10_state.md R17), besides the host's access to a single flag (R132).
-/

namespace Sys2Proof.Machine

/-- `SetZN(v)`: `Z` is 1 exactly when `v = 0`, `N` is `v[7]`, the other five flags are left (R17). -/
def Flags.setZN (f : Flags) (v : Byte) : Flags :=
  { f with z := v == 0#8, n := v.getLsbD 7 }

/-- One flag, by its letter (R15, R16). -/
def Flags.get (f : Flags) : Flag → Bool
  | .c => f.c
  | .z => f.z
  | .i => f.i
  | .d => f.d
  | .b => f.b
  | .v => f.v
  | .n => f.n

/-- One flag set, the other six left: each is settable individually (R15, R18, R132). -/
def Flags.set (f : Flags) (name : Flag) (bit : Bool) : Flags :=
  match name with
  | .c => { f with c := bit }
  | .z => { f with z := bit }
  | .i => { f with i := bit }
  | .d => { f with d := bit }
  | .b => { f with b := bit }
  | .v => { f with v := bit }
  | .n => { f with n := bit }

end Sys2Proof.Machine
end

