-- ==== Sys2Proof/Machine/Ops.lean ====
section
/-!
DEFINITION. The named operations over memory and registers. No instruction takes an exception: the unit has none (60_exceptions.md
R110), so there is no exception entry here and no return from one (R114, R115).
-/

namespace Sys2Proof.Machine

/-! ## Memory contents -/

/-- The byte at an address: 0x00 where none is listed, since `reset` clears every byte (R25). -/
def Memory.read : Memory → Nat → Byte
  | [], _ => 0x00#8
  | (k, b) :: m, a => if k = a then b else Memory.read m a

/-- The contents with the byte `v` at address `a`, in canonical form: a zero byte is not listed. -/
def Memory.write : Memory → Nat → Byte → Memory
  | [], a, v => if v = 0x00#8 then [] else [(a, v)]
  | (k, b) :: m, a, v =>
    if a < k then (if v = 0x00#8 then (k, b) :: m else (a, v) :: (k, b) :: m)
    else if a = k then (if v = 0x00#8 then m else (a, v) :: m)
    else (k, b) :: Memory.write m a v

/-- The contents whose bytes from address `a` up are those of a list, and 0x00 elsewhere. -/
def Memory.ofBytesFrom : Nat → List Byte → Memory
  | _, [] => []
  | a, v :: vs => if v = 0x00#8 then Memory.ofBytesFrom (a + 1) vs else (a, v) :: Memory.ofBytesFrom (a + 1) vs

/-- Every address listed is at least `lo`, they rise strictly, and no byte listed is 0x00. -/
def Memory.wfFrom : Nat → Memory → Bool
  | _, [] => true
  | lo, (k, b) :: m => decide (lo ≤ k) && (b != 0x00#8) && Memory.wfFrom (k + 1) m

/-- The canonical form: addresses strictly rising, no byte equal to what an unlisted address reads. -/
def Memory.wf (m : Memory) : Bool := Memory.wfFrom 0 m

/-- Every address listed exists in a memory of `size` bytes (R31). -/
def Memory.below (size : Nat) (m : Memory) : Bool := m.all (fun cell => decide (cell.1 < size))

/-! ## Memory access, checked against `MEMSIZE` -/

/-- `MemRead(addr, 1)`: the byte, or `MemOutOfRange` at or above `MEMSIZE` with no reduction of the address (R33, R35).
DEDUCED (log 11): the address is a natural number, since the host reaches bytes above 65535 where they exist (R31, R131). Safe. -/
def State.memReadAt (s : State) (addr : Nat) : Except Fault Byte :=
  if addr < s.cfg.memSize then .ok (Memory.read s.mem addr) else .error (.memOutOfRange addr)

/-- `MemRead` at a 16-bit address, the form every instruction uses (R33). -/
def State.memRead (s : State) (addr : Addr) : Except Fault Byte := s.memReadAt addr.toNat

/-- `MemWrite(addr, 1, v)`: nothing but the byte changes, or `MemOutOfRange` (R34, R35). -/
def State.memWriteAt (s : State) (addr : Nat) (v : Byte) : Except Fault State :=
  if addr < s.cfg.memSize then .ok { s with mem := Memory.write s.mem addr v } else .error (.memOutOfRange addr)

/-! ## Registers and flags -/

/-- An 8-bit register, by name (R10 to R12). -/
def State.readReg (s : State) : Reg8 → Byte
  | .a => s.a
  | .x => s.x
  | .y => s.y
  | .sp => s.sp

/-- An 8-bit register written; no register is aliased, banked or hard-wired (R10 to R12). -/
def State.writeReg (s : State) (r : Reg8) (v : Byte) : State :=
  match r with
  | .a => { s with a := v }
  | .x => { s with x := v }
  | .y => { s with y := v }
  | .sp => { s with sp := v }

/-- `SetZN(v)` on the state: `Z` and `N` and nothing else (R17). -/
def State.setZN (s : State) (v : Byte) : State := { s with flags := s.flags.setZN v }

/-- `PC <- (PC + n) mod 65536` (R14).
DEDUCED (D10, log 9): the wrap at 0xFFFF, from the counter's stated width. Unsafe. -/
def State.advancePC (s : State) (n : Nat) : State := { s with pc := s.pc + BitVec.ofNat 16 n }

/-! ## Cycle accounting -/

/-- The counters after a step that takes `spent` cycles from `remaining` and counts `counted` of them in `completed`; without
a run there are no counters (R20, R66). -/
def Lifecycle.spend (l : Lifecycle) (spent counted : Nat) : Lifecycle :=
  match l with
  | .running remaining completed => .running (remaining - spent) (completed + counted)
  | .uninitialized => .uninitialized
  | .reset => .reset
  | .haltedByBudget => .haltedByBudget
  | .destroyed => .destroyed

/-- The run loop's accounting on the state (R65, R67). -/
def State.spend (s : State) (spent counted : Nat) : State := { s with lifecycle := s.lifecycle.spend spent counted }

/-! ## What every load does -/

/-- The state after a load has its byte `v`: the target register, `SetZN`, `PC` past the instruction's `len` bytes, and the
cost taken from `remaining` and added to `completed` (R65, R90 steps (c) to (e), R99). -/
def State.loaded (s : State) (target : Reg8) (len cost : Nat) (v : Byte) : State :=
  (((s.writeReg target v).setZN v).advancePC len).spend cost cost

/-- The common contract of every load (R90, R99), from its effective value (R76): out of range it stops before any register
is written (R114), and otherwise it completes. -/
def load (target : Reg8) (len cost : Nat) (value : Except Fault Byte) (s : State) :
    Host.Outcome State Fault Refusal :=
  match value with
  | .error f => .fault f
  | .ok v => .next (s.loaded target len cost v)

end Sys2Proof.Machine
end

