-- ==== Sys2Proof/Machine/Operands.lean ====
section
/-!
DEFINITION. The addressing modes (41_addressing_modes.md R76 to R89), as functions of the operand that decoding has
assembled: an effective address for every mode but immediate, and the effective value read from it (R76). None writes any
state, and none changes an index register (R89); the effective addresses are those a write-type instruction would use.
-/

namespace Sys2Proof.Machine

/-- `zext_16(b)`: a byte as a 16-bit value, never sign-extended (R6, R11, R50). -/
def zext16 (b : Byte) : Addr := b.setWidth 16

/-- `EA_ZP`: the operand byte as an address of the zero page (R78). -/
def eaZp (b : Byte) : Addr := zext16 b

/-- `EA_ZPX`: operand plus `X`, wrapping in the zero page (R79). -/
def eaZpx (b : Byte) (s : State) : Addr := zext16 (b + s.x)

/-- `EA_ZPY`: operand plus `Y`, wrapping in the zero page (R80). -/
def eaZpy (b : Byte) (s : State) : Addr := zext16 (b + s.y)

/-- `EA_ABS`: the operand word (R81). -/
def eaAbs (w : Addr) : Addr := w

/-- `EA_ABX`: the operand word plus `X` in 16-bit arithmetic, which wraps at 65536 only (R82, C3). -/
def eaAbx (w : Addr) (s : State) : Addr := w + zext16 s.x

/-- `EA_ABY`: the operand word plus `Y` in 16-bit arithmetic (R83, C3). -/
def eaAby (w : Addr) (s : State) : Addr := w + zext16 s.y

/-- `EA_IZX`: the ONE byte at operand plus `X`, wrapping in the zero page, is the effective address (R84, C8). -/
def eaIzx (b : Byte) (s : State) : Except Fault Addr :=
  (s.memRead (zext16 (b + s.x))).map zext16

/-- The sum of a pointer byte and `Y`: 9 bits, or cut to 8 when `INDY_WRAP8` (R85).
DESIGN CHOICE (the spec's own, D3; log 3): the width is a parameter, since the source gives none. Safe, both settings being
modelled; unsafe only for a claim about one setting. -/
def indySum (cfg : Config) (pointer y : Byte) : Addr :=
  if cfg.indyWrap8 then zext16 (pointer + y) else zext16 pointer + zext16 y

/-- `EA_IZY`: the ONE byte at the operand, plus `Y` (R85, C8). -/
def eaIzy (b : Byte) (s : State) : Except Fault Addr :=
  (s.memRead (zext16 b)).map (fun pointer => indySum s.cfg pointer s.y)

/-- The effective value of immediate mode: the operand byte, with no further read (R77, C4). -/
def valueImm (b : Byte) : Except Fault Byte := .ok b

/-- The effective value of zero-page mode (R76, R78). -/
def valueZp (b : Byte) (s : State) : Except Fault Byte := s.memRead (eaZp b)

/-- The effective value of zero-page,X mode (R76, R79). -/
def valueZpx (b : Byte) (s : State) : Except Fault Byte := s.memRead (eaZpx b s)

/-- The effective value of zero-page,Y mode (R76, R80). -/
def valueZpy (b : Byte) (s : State) : Except Fault Byte := s.memRead (eaZpy b s)

/-- The effective value of absolute mode (R76, R81). -/
def valueAbs (w : Addr) (s : State) : Except Fault Byte := s.memRead (eaAbs w)

/-- The effective value of absolute,X mode (R76, R82). -/
def valueAbx (w : Addr) (s : State) : Except Fault Byte := s.memRead (eaAbx w s)

/-- The effective value of absolute,Y mode (R76, R83). -/
def valueAby (w : Addr) (s : State) : Except Fault Byte := s.memRead (eaAby w s)

/-- The effective value of indexed-indirect (X) mode: pointer read, then data read (R42, R76, R84). -/
def valueIzx (b : Byte) (s : State) : Except Fault Byte := (eaIzx b s).bind s.memRead

/-- The effective value of indirect-indexed (Y) mode: pointer read, then data read (R42, R76, R85). -/
def valueIzy (b : Byte) (s : State) : Except Fault Byte := (eaIzy b s).bind s.memRead

end Sys2Proof.Machine
end

