-- ==== Sys2Proof/Machine/Lda.lean ====
section
/-!
DEFINITION. LDA, load accumulator: eight instructions (42_lda.md). Each writes `A`, `Z`, `N` and `PC` and takes its fixed
cost; the length and the cost are those of 30_encoding.md R52 and 41_addressing_modes.md R87, with no page-cross cycle (R88).
-/

namespace Sys2Proof.Machine

/-- `LDA #$nn` (R91). -/
def execLdaImm (b : Byte) (s : State) : Host.Outcome State Fault Refusal := load .a 2 2 (valueImm b) s

/-- `LDA $nn` (R92). -/
def execLdaZp (b : Byte) (s : State) : Host.Outcome State Fault Refusal := load .a 2 3 (valueZp b s) s

/-- `LDA $nn,X` (R93). -/
def execLdaZpx (b : Byte) (s : State) : Host.Outcome State Fault Refusal := load .a 2 4 (valueZpx b s) s

/-- `LDA $nnnn` (R94). -/
def execLdaAbs (w : Addr) (s : State) : Host.Outcome State Fault Refusal := load .a 3 4 (valueAbs w s) s

/-- `LDA $nnnn,X` (R95). -/
def execLdaAbx (w : Addr) (s : State) : Host.Outcome State Fault Refusal := load .a 3 4 (valueAbx w s) s

/-- `LDA $nnnn,Y` (R96). -/
def execLdaAby (w : Addr) (s : State) : Host.Outcome State Fault Refusal := load .a 3 4 (valueAby w s) s

/-- `LDA ($nn,X)` (R97). -/
def execLdaIzx (b : Byte) (s : State) : Host.Outcome State Fault Refusal := load .a 2 6 (valueIzx b s) s

/-- `LDA ($nn),Y` (R98). -/
def execLdaIzy (b : Byte) (s : State) : Host.Outcome State Fault Refusal := load .a 2 5 (valueIzy b s) s

end Sys2Proof.Machine
end

