-- ==== Sys2Proof/Machine/Ldx.lean ====
section
/-!
DEFINITION. LDX, load X register: five instructions (43_ldx.md), with the contract of LDA and `X` as the target (R99). No
form indexes by `X` (R54).
-/

namespace Sys2Proof.Machine

/-- `LDX #$nn` (R100). -/
def execLdxImm (b : Byte) (s : State) : Host.Outcome State Fault Refusal := load .x 2 2 (valueImm b) s

/-- `LDX $nn` (R101). -/
def execLdxZp (b : Byte) (s : State) : Host.Outcome State Fault Refusal := load .x 2 3 (valueZp b s) s

/-- `LDX $nn,Y` (R102). -/
def execLdxZpy (b : Byte) (s : State) : Host.Outcome State Fault Refusal := load .x 2 4 (valueZpy b s) s

/-- `LDX $nnnn` (R103). -/
def execLdxAbs (w : Addr) (s : State) : Host.Outcome State Fault Refusal := load .x 3 4 (valueAbs w s) s

/-- `LDX $nnnn,Y` (R104). -/
def execLdxAby (w : Addr) (s : State) : Host.Outcome State Fault Refusal := load .x 3 4 (valueAby w s) s

end Sys2Proof.Machine
end

