-- ==== Sys2Proof/Machine/Unassigned.lean ====
section
/-!
DEFINITION. The unassigned opcodes: 243 byte values, one behaviour (44_unassigned_opcodes.md).
-/

namespace Sys2Proof.Machine

/-- `.byte $nn`. By default an idle cycle: `PC` advances by 1, `remaining` drops by 1, `completed` and everything else stay
(R106). With `STRICT_OPCODES` the run ends with `IllegalOpcode(op, PC0)`, `PC` having advanced (R107).
DEDUCED (the spec's readings D18 and D19; log 8): the idle cycle is not counted, and `PC` advances. Unsafe.
DESIGN CHOICE (the spec's own, D6; log 13): what strict mode does. Safe. -/
def execUnassigned (op : Byte) (s : State) : Host.Outcome State Fault Refusal :=
  if s.cfg.strictOpcodes then .fault (.illegalOpcode op s.pc (s.advancePC 1))
  else .next ((s.advancePC 1).spend 1 0)

end Sys2Proof.Machine
end

