-- ==== Sys2Proof/Syntax.lean ====
section
/-!
DEFINITION. The instructions: the thirteen pairs of a family and an addressing mode (30_encoding.md R52, R54) and the
unassigned opcode (R55, R56).
-/

namespace Sys2Proof

/-- One constructor for each assigned row of the opcode table, and one for the 243 unassigned rows, which the spec
describes by one rule with the byte as its operand (R55, R106). `b` is the one-byte operand of format `OP_B`, `w` the
little-endian word of format `OP_W` (R49, R50). -/
inductive Instr where
  /-- `LDA #$nn` (R91). -/
  | ldaImm (b : Byte)
  /-- `LDA $nn` (R92). -/
  | ldaZp (b : Byte)
  /-- `LDA $nn,X` (R93). -/
  | ldaZpx (b : Byte)
  /-- `LDA $nnnn` (R94). -/
  | ldaAbs (w : Addr)
  /-- `LDA $nnnn,X` (R95). -/
  | ldaAbx (w : Addr)
  /-- `LDA $nnnn,Y` (R96). -/
  | ldaAby (w : Addr)
  /-- `LDA ($nn,X)` (R97). -/
  | ldaIzx (b : Byte)
  /-- `LDA ($nn),Y` (R98). -/
  | ldaIzy (b : Byte)
  /-- `LDX #$nn` (R100). -/
  | ldxImm (b : Byte)
  /-- `LDX $nn` (R101). -/
  | ldxZp (b : Byte)
  /-- `LDX $nn,Y` (R102). -/
  | ldxZpy (b : Byte)
  /-- `LDX $nnnn` (R103). -/
  | ldxAbs (w : Addr)
  /-- `LDX $nnnn,Y` (R104). -/
  | ldxAby (w : Addr)
  /-- `.byte $nn`, an unassigned opcode byte (R105, R106). -/
  | unassigned (op : Byte)
  deriving DecidableEq, Repr

end Sys2Proof
end

