-- ==== Sys2Proof/WellFormed.lean ====
section
/-!
DEFINITION. Which terms of `Instr` are instructions of the unit. Every operand byte and word is legal (R50, R90); the one
check is that an unassigned instruction carries an unassigned byte.
-/

namespace Sys2Proof

/-- The 243 unassigned byte values, written from the ranges of 44_unassigned_opcodes.md R105 and not from the opcode map,
so that the two can be compared. -/
def isUnassigned (op : Byte) : Bool :=
  let n := op.toNat
  (n ≤ 0xA0) || (n == 0xA3 || n == 0xA4) || (n == 0xA7 || n == 0xA8) || (0xAA ≤ n && n ≤ 0xAC)
    || (n == 0xAF || n == 0xB0) || (0xB2 ≤ n && n ≤ 0xB4) || (n == 0xB7 || n == 0xB8)
    || (0xBA ≤ n && n ≤ 0xBC) || (0xBF ≤ n)

/-- An instruction is well formed when its byte, if it is an unassigned one, is not an assigned opcode (R105). -/
def Instr.wf : Instr → Bool
  | .ldaImm _ | .ldaZp _ | .ldaZpx _ | .ldaAbs _ | .ldaAbx _ | .ldaAby _ | .ldaIzx _ | .ldaIzy _ => true
  | .ldxImm _ | .ldxZp _ | .ldxZpy _ | .ldxAbs _ | .ldxAby _ => true
  | .unassigned op => isUnassigned op

end Sys2Proof
end

