-- ==== Sys2Proof/Decode.lean ====
section
/-!
DEFINITION. Decoding (30_encoding.md R48 to R56) and, after it, encoding. The opcode map is one table (R53), and the whole
opcode byte is looked up in it (R48): no field of the byte is decoded.
-/

namespace Sys2Proof

/-- The word `hi:lo` of two bytes, the low byte first in memory (R36, R50). -/
def wordOfBytes (lo hi : Byte) : Addr := hi ++ lo

/-- Bits 7:0 of a word (R49, format `OP_W`, byte 1). -/
def lowByte (w : Addr) : Byte := w.setWidth 8

/-- Bits 15:8 of a word (R49, format `OP_W`, byte 2). -/
def highByte (w : Addr) : Byte := (w >>> 8).setWidth 8

/-- What an assigned opcode byte is followed by, and the instruction it makes of it (R49). -/
inductive Shape where
  /-- Format `OP_B`: one operand byte. -/
  | opB (make : Byte → Instr)
  /-- Format `OP_W`: a little-endian operand word. -/
  | opW (make : Addr → Instr)

/-- The opcode map, in the order of R52.
0xA9 is the source's own value. PRESUMED (log 1): the other twelve, and which modes each family has, are the spec's
decisions D1 and D2 from general knowledge of the 6502. Unsafe. -/
def opcodeMap : List (Byte × Shape) :=
  [ (0xA1#8, .opB .ldaIzx), (0xA2#8, .opB .ldxImm), (0xA5#8, .opB .ldaZp), (0xA6#8, .opB .ldxZp)
  , (0xA9#8, .opB .ldaImm), (0xAD#8, .opW .ldaAbs), (0xAE#8, .opW .ldxAbs), (0xB1#8, .opB .ldaIzy)
  , (0xB5#8, .opB .ldaZpx), (0xB6#8, .opB .ldxZpy), (0xB9#8, .opW .ldaAby), (0xBD#8, .opW .ldaAbx)
  , (0xBE#8, .opW .ldxAby) ]

/-- The total decode function of R56 on the opcode byte: a row of the map, or `none` for an unassigned byte. -/
def shapeOf (op : Byte) : Option Shape := opcodeMap.lookup op

/-- The length in bytes of the instruction an opcode byte begins, a function of that byte alone (R51). -/
def opcodeLength (op : Byte) : Nat :=
  match shapeOf op with
  | none => 1
  | some (.opB _) => 2
  | some (.opW _) => 3

/-- Why a list of bytes is no instruction: no opcode byte is reserved or illegal (R55), so the only reason is that the list
ends too early. -/
inductive DecodeError where
  /-- The byte at this offset from the opcode byte is missing. -/
  | missingByte (offset : Nat)
  deriving DecidableEq, Repr

/-- The instruction at the head of a list of bytes, and the bytes after it. -/
def decode : List Byte → Except DecodeError (Instr × List Byte)
  | [] => .error (.missingByte 0)
  | op :: rest =>
    match shapeOf op, rest with
    | none, _ => .ok (.unassigned op, rest)
    | some (.opB _), [] => .error (.missingByte 1)
    | some (.opB make), b :: rest' => .ok (make b, rest')
    | some (.opW _), [] => .error (.missingByte 1)
    | some (.opW _), [_] => .error (.missingByte 2)
    | some (.opW make), lo :: hi :: rest' => .ok (make (wordOfBytes lo hi), rest')

/-- The bytes of an instruction (R49, R52); for an ill-formed one, the byte it carries. -/
def encode : Instr → List Byte
  | .ldaImm b => [0xA9#8, b]
  | .ldaZp b => [0xA5#8, b]
  | .ldaZpx b => [0xB5#8, b]
  | .ldaAbs w => [0xAD#8, lowByte w, highByte w]
  | .ldaAbx w => [0xBD#8, lowByte w, highByte w]
  | .ldaAby w => [0xB9#8, lowByte w, highByte w]
  | .ldaIzx b => [0xA1#8, b]
  | .ldaIzy b => [0xB1#8, b]
  | .ldxImm b => [0xA2#8, b]
  | .ldxZp b => [0xA6#8, b]
  | .ldxZpy b => [0xB6#8, b]
  | .ldxAbs w => [0xAE#8, lowByte w, highByte w]
  | .ldxAby w => [0xBE#8, lowByte w, highByte w]
  | .unassigned op => [op]

/-- The length of an instruction in bytes: the Length column of R52, and 1 for an unassigned byte (R51, R106). -/
def Instr.length : Instr → Nat
  | .ldaImm _ | .ldaZp _ | .ldaZpx _ | .ldaIzx _ | .ldaIzy _ => 2
  | .ldxImm _ | .ldxZp _ | .ldxZpy _ => 2
  | .ldaAbs _ | .ldaAbx _ | .ldaAby _ | .ldxAbs _ | .ldxAby _ => 3
  | .unassigned _ => 1

/-- The first three bytes of an instruction given as a number in the opcode table's numbering: bits 7:0 are the first byte,
and every bit from `nbits` up is 0. Three bytes are the longest instruction (R51). -/
def tableBytes (nbits w : Nat) : List Byte :=
  let v := w % 2 ^ nbits
  [BitVec.ofNat 8 v, BitVec.ofNat 8 (v / 256), BitVec.ofNat 8 (v / 65536)]

/-- The instruction the decoder reads from a word of the opcode table. -/
def decodeTableWord (nbits w : Nat) : Option Instr :=
  match decode (tableBytes nbits w) with
  | .ok (i, _) => some i
  | .error _ => none

end Sys2Proof
end

