-- ==== Sys2Proof/Machine/Fetch.lean ====
section
/-!
DEFINITION. Fetching (40_fetch_execute_loop.md R60, R61): the two primitives, the instruction at `PC`, and how the host's
check places an instruction there.
-/

namespace Sys2Proof.Machine

/-- `FetchByte()`: the byte at `PC`, and the state with `PC` advanced by 1; out of range, `PC` is not advanced (R60). -/
def State.fetchByte (s : State) : Except Fault (Byte × State) :=
  (s.memRead s.pc).map (fun v => (v, s.advancePC 1))

/-- `FetchWord()`: the little-endian word at `PC`, the low byte read first, and the state with `PC` advanced by 2 (R36, R42,
R61).
DEDUCED (D10, log 9): the high byte of a word at 0xFFFF is at 0x0000. Unsafe. -/
def State.fetchWord (s : State) : Except Fault (Addr × State) :=
  (s.memRead s.pc).bind fun lo =>
    (s.memRead (s.pc + 1#16)).map fun hi => (wordOfBytes lo hi, s.advancePC 2)

/-- The instruction at `PC`, and the state with `PC` past its last byte: the opcode byte, then the operand that the byte's
format asks for (R49, R62, R65). -/
def State.fetchInstr (s : State) : Except Fault (Instr × State) :=
  s.fetchByte.bind fun (op, s1) =>
    match shapeOf op with
    | none => .ok (.unassigned op, s1)
    | some (.opB make) => s1.fetchByte.map fun (b, s2) => (make b, s2)
    | some (.opW make) => s1.fetchWord.map fun (w, s2) => (make w, s2)

/-- Bytes placed from `addr` up, `mod 65536`; a byte whose address does not exist is left out. -/
def State.placeBytes (s : State) (addr : Addr) : List Byte → State
  | [] => s
  | v :: vs =>
    let s' := if addr.toNat < s.cfg.memSize then { s with mem := Memory.write s.mem addr.toNat v } else s
    s'.placeBytes (addr + 1#16) vs

/-- A run under way with at least one cycle left, so that the next step is an instruction: a run that has one is left alone,
and otherwise the effect of `run(1)` (R63, R122). -/
def State.withRunUnderWay (s : State) : State :=
  match s.lifecycle with
  | .running remaining completed =>
    if 0 < remaining then s else { s with lifecycle := .running 1 completed, answer := none }
  | _ => { s with lifecycle := .running 1 0, answer := none }

end Sys2Proof.Machine
end

