-- ==== Sys2Proof/Machine/HostOps.lean ====
section
/-!
DEFINITION. The lifecycle and the host's commands (70_reset_and_hazards.md R125 to R133), and the end of a run (R68, R129).
-/

namespace Sys2Proof.Machine

/-- What the state elements of a unit happen to hold when it is created (R26, R126).
DESIGN CHOICE (log 6): an argument, over which every statement ranges, and no value of the model's choosing. Safe.
`bytes` are those from address 0 up, and 0x00 follows where the list is shorter than the memory. -/
structure PowerOn where
  a : Byte
  x : Byte
  y : Byte
  sp : Byte
  pc : Addr
  flags : Flags
  bytes : List Byte
  deriving DecidableEq, Repr

/-- `create(MEMSIZE)`: a unit with its parameters fixed, in state `Uninitialized`, whose registers, flags and memory hold what
`p` says, which every statement takes as arbitrary (R126); `host` are the commands to come. -/
def State.create (cfg : Config) (p : PowerOn) (host : List HostOp) : State :=
  { cfg := cfg, a := p.a, x := p.x, y := p.y, sp := p.sp, pc := p.pc, flags := p.flags
    mem := Memory.ofBytesFrom 0 (p.bytes.take cfg.memSize), lifecycle := .uninitialized, host := host, answer := none }

/-- The command reads the unit or runs it, and so needs defined contents (R26, R125, R128). -/
def HostOp.needsReset : HostOp → Bool
  | .run _ | .readMem _ | .readReg _ | .readPC | .readFlag _ => true
  | .reset | .destroy | .writeMem _ _ | .writeReg _ _ | .writePC _ | .writeFlag _ _ => false

/-- The table of R125: why a command is not admitted in a lifecycle state, or `none` where it is admitted.
DESIGN CHOICE (the spec's own, D5, D8, D17; log 13, log 15): the rows the source does not draw. Safe. -/
def hostRefusal (l : Lifecycle) (op : HostOp) : Option Refusal :=
  match l with
  | .uninitialized => if op.needsReset then some .uninitialized else none
  | .reset => none
  | .haltedByBudget => none
  | .running _ _ => some .hostExcluded
  | .destroyed => some .destroyed

/-- `reset`: every register, flag and byte 0 whatever they were, the parameters left (R25, R127). -/
def State.hostReset (s : State) : State := { State.resetWith s.cfg with host := s.host }

/-- The start of `run(cycle_budget)`: fresh counters, and no register, flag or byte changes (R63, R75). -/
def State.startRun (s : State) (budget : Int) : State :=
  { s with lifecycle := .running budget 0, answer := none }

/-- The end of a run: the host is given `completed`, everything else stays (R68, R129). -/
def State.finishRun (s : State) (completed : Nat) : State :=
  { s with lifecycle := .haltedByBudget, answer := some (.total completed) }

/-- `destroy` (R130). DESIGN CHOICE (log 10): what the storage holds afterwards is not given; nothing can read it, and the
model leaves it. Safe. -/
def State.destroy (s : State) : State := { s with lifecycle := .destroyed, answer := none }

/-- The effect of a command that is admitted. -/
def State.performAdmitted (op : HostOp) (s : State) : Host.Outcome State Fault Refusal :=
  match op with
  | .reset => .next s.hostReset
  | .run budget => .next (s.startRun budget)
  | .destroy => .next s.destroy
  | .readMem addr =>
    match s.memReadAt addr with
    | .error f => .fault f
    | .ok v => .next { s with answer := some (.byte v) }
  | .writeMem addr v =>
    match s.memWriteAt addr v with
    | .error f => .fault f
    | .ok s' => .next { s' with answer := none }
  | .readReg r => .next { s with answer := some (.byte (s.readReg r)) }
  | .writeReg r v => .next { s.writeReg r v with answer := none }
  | .readPC => .next { s with answer := some (.word s.pc) }
  | .writePC v => .next { s with pc := v, answer := none }
  | .readFlag f => .next { s with answer := some (.bit (s.flags.get f)) }
  | .writeFlag f v => .next { s with flags := s.flags.set f v, answer := none }

/-- A command of the host: refused where R125 does not admit it, and otherwise its effect. -/
def State.perform (op : HostOp) (s : State) : Host.Outcome State Fault Refusal :=
  match hostRefusal s.lifecycle op with
  | some r => .refused r
  | none => s.performAdmitted op

/-- A step of a unit that is not running: the host's next command, taken off the list; with none to come nothing happens, and
the host has control (R123, R129; log 4). -/
def State.hostStep (s : State) : Host.Outcome State Fault Refusal :=
  match s.host with
  | [] => .next s
  | op :: rest => State.perform op { s with host := rest }

end Sys2Proof.Machine
end

