-- ==== Sys2Proof/Machine/Step.lean ====
section
/-!
DEFINITION. One step of the unit: one turn of the run loop while a run is under way (40_fetch_execute_loop.md R64), and
otherwise the host's next command (70_reset_and_hazards.md R125).
-/

namespace Sys2Proof.Machine

/-- One instruction step (R65, R67): fetch, decode, execute. The state that fetching leaves is dropped, because a meaning
starts from `PC` at the opcode byte and advances it past the instruction itself. -/
def State.runInstr (s : State) : Host.Outcome State Fault Refusal :=
  match s.fetchInstr with
  | .error f => .fault f
  | .ok (i, _) => exec i s

/-- One step. While running, the loop condition `remaining > 0` is tested, and at no other time (R64, R68).
DESIGN CHOICE (log 16): a step is one command, one instruction or the end of a run, as R74 allows. Safe. -/
def step (s : State) : Host.Outcome State Fault Refusal :=
  match s.lifecycle with
  | .running remaining completed => if 0 < remaining then s.runInstr else .next (s.finishRun completed)
  | .uninitialized | .reset | .haltedByBudget | .destroyed => s.hostStep

/-- The state with an instruction of the opcode table stored at `PC`, and with a run under way so that the very next step
fetches it: what the host does by writing the bytes and commanding `run(1)` (R131, R134).
DESIGN CHOICE (log 12): it stands for the host's load and command; no instruction's meaning rests on it. Safe. -/
def State.withFetchWord (s : State) (nbits w : Nat) : State :=
  (s.placeBytes s.pc (tableBytes nbits w)).withRunUnderWay

end Sys2Proof.Machine
end

