-- ==== Sys2Proof/Safety.lean ====
section
/-!
DEFINITION. The terms claims are stated in: runs of several steps, the bytes at an address, the rules' results of a load
written out independently of the machine's operations, the timing table, and the invariant.
-/

namespace Sys2Proof.Machine

/-- `k` steps, stopping at the first fault or refusal. -/
def steps : Nat → State → Host.Outcome State Fault Refusal
  | 0, s => .next s
  | k + 1, s =>
    match step s with
    | .next s' => steps k s'
    | .fault f => .fault f
    | .refused r => .refused r

/-- The bytes of a list stand, all of them in existing memory, from `addr` up, `mod 65536` (R49). -/
def State.BytesAt (s : State) (addr : Addr) : List Byte → Prop
  | [] => True
  | v :: vs => addr.toNat < s.cfg.memSize ∧ Memory.read s.mem addr.toNat = v ∧ s.BytesAt (addr + 1#16) vs

/-- A run is under way and the loop condition holds, so the next step is an instruction (R64). -/
def State.AtInstruction (s : State) : Prop :=
  ∃ remaining completed, s.lifecycle = .running remaining completed ∧ 0 < remaining

/-- The unit can take a command that needs defined contents: `Reset` or `Halted-by-budget` (R125, R128). -/
abbrev State.Idle (s : State) : Prop := s.lifecycle = .reset ∨ s.lifecycle = .haltedByBudget

/-- The flags after a load of `v`, as R17 and R18 give them: only `Z` and `N` change. -/
def Flags.afterLoad (f : Flags) (v : Byte) : Flags :=
  { c := f.c, z := decide (v = 0#8), i := f.i, d := f.d, b := f.b, v := f.v, n := decide (128 ≤ v.toNat) }

/-- The counters after a handler of cost `cost`, as R65 gives them; there are none outside a run (R20). -/
def Lifecycle.afterCost (l : Lifecycle) (cost : Nat) : Lifecycle :=
  match l with
  | .running remaining completed => .running (remaining - cost) (completed + cost)
  | other => other

/-- The counters after an idle cycle, as R67 gives them. -/
def Lifecycle.afterIdle (l : Lifecycle) : Lifecycle :=
  match l with
  | .running remaining completed => .running (remaining - 1) completed
  | other => other

/-- The whole state after an LDA of `len` bytes and cost `cost` that loads `v`: `A`, `Z`, `N`, `PC` and the counters, and
nothing else (R90). -/
def State.afterLda (s : State) (len cost : Nat) (v : Byte) : State :=
  { s with a := v, flags := s.flags.afterLoad v, pc := s.pc + BitVec.ofNat 16 len
           lifecycle := s.lifecycle.afterCost cost }

/-- The whole state after an LDX of `len` bytes and cost `cost` that loads `v`: `X`, `Z`, `N`, `PC` and the counters, and
nothing else (R99). -/
def State.afterLdx (s : State) (len cost : Nat) (v : Byte) : State :=
  { s with x := v, flags := s.flags.afterLoad v, pc := s.pc + BitVec.ofNat 16 len
           lifecycle := s.lifecycle.afterCost cost }

/-- The whole state after an idle cycle: `PC` and `remaining`, and nothing else (R106). -/
def State.afterIdle (s : State) : State :=
  { s with pc := s.pc + 1#16, lifecycle := s.lifecycle.afterIdle }

/-- The column 'Cost taken from remaining' of the timing table (R138). -/
def budgetCost : Instr → Nat
  | .ldaImm _ => 2
  | .ldaZp _ => 3
  | .ldaZpx _ => 4
  | .ldaAbs _ => 4
  | .ldaAbx _ => 4
  | .ldaAby _ => 4
  | .ldaIzx _ => 6
  | .ldaIzy _ => 5
  | .ldxImm _ => 2
  | .ldxZp _ => 3
  | .ldxZpy _ => 4
  | .ldxAbs _ => 4
  | .ldxAby _ => 4
  | .unassigned _ => 1

/-- The column 'Cost counted in completed' of the timing table (R138). -/
def countedCost : Instr → Nat
  | .unassigned _ => 0
  | i => budgetCost i

/-- The instruction is one of the thirteen assigned ones (R52). -/
def IsAssigned (i : Instr) : Prop := ∀ op, i ≠ .unassigned op

/-- The instruction is one of the eight LDA forms (R54). -/
def isLda : Instr → Bool
  | .ldaImm _ | .ldaZp _ | .ldaZpx _ | .ldaAbs _ | .ldaAbx _ | .ldaAby _ | .ldaIzx _ | .ldaIzy _ => true
  | .ldxImm _ | .ldxZp _ | .ldxZpy _ | .ldxAbs _ | .ldxAby _ | .unassigned _ => false

/-- The instruction is one of the five LDX forms (R54). -/
def isLdx : Instr → Bool
  | .ldxImm _ | .ldxZp _ | .ldxZpy _ | .ldxAbs _ | .ldxAby _ => true
  | .ldaImm _ | .ldaZp _ | .ldaZpx _ | .ldaAbs _ | .ldaAbx _ | .ldaAby _ | .ldaIzx _ | .ldaIzy _ => false
  | .unassigned _ => false

/-- The effective value of a load by its addressing mode, with the address arithmetic written out in natural numbers
(R77 to R85): the byte, or the address that does not exist. An unassigned opcode has none: its arm is a placeholder, and every
statement asks for a load. -/
def effectiveValue (i : Instr) (s : State) : Except Nat Byte :=
  let byteAt (addr : Nat) : Except Nat Byte := if addr < s.cfg.memSize then .ok (Memory.read s.mem addr) else .error addr
  match i with
  | .ldaImm b | .ldxImm b => .ok b
  | .ldaZp b | .ldxZp b => byteAt b.toNat
  | .ldaZpx b => byteAt ((b.toNat + s.x.toNat) % 256)
  | .ldxZpy b => byteAt ((b.toNat + s.y.toNat) % 256)
  | .ldaAbs w | .ldxAbs w => byteAt w.toNat
  | .ldaAbx w => byteAt ((w.toNat + s.x.toNat) % 65536)
  | .ldaAby w | .ldxAby w => byteAt ((w.toNat + s.y.toNat) % 65536)
  | .ldaIzx b =>
    match byteAt ((b.toNat + s.x.toNat) % 256) with
    | .ok pointer => byteAt pointer.toNat
    | .error addr => .error addr
  | .ldaIzy b =>
    match byteAt b.toNat with
    | .ok pointer =>
      byteAt (if s.cfg.indyWrap8 then (pointer.toNat + s.y.toNat) % 256 else pointer.toNat + s.y.toNat)
    | .error addr => .error addr
  | .unassigned _ => .error 0

/-- The instruction is an unassigned one, an idle cycle when it completes (R106). -/
def isIdle : Instr → Bool
  | .unassigned _ => true
  | .ldaImm _ | .ldaZp _ | .ldaZpx _ | .ldaAbs _ | .ldaAbx _ | .ldaAby _ | .ldaIzx _ | .ldaIzy _ => false
  | .ldxImm _ | .ldxZp _ | .ldxZpy _ | .ldxAbs _ | .ldxAby _ => false

/-- The instruction a step of a run is about to execute: what the bytes from `PC` up decode to, read from memory without the
machine's fetch; none where the loop condition fails or no run is under way (R64). -/
def State.instrAtPC (s : State) : Option Instr :=
  let byteAt (addr : Addr) : Byte := Memory.read s.mem addr.toNat
  match s.lifecycle with
  | .running remaining _ =>
    if 0 < remaining then
      match decode [byteAt s.pc, byteAt (s.pc + 1#16), byteAt (s.pc + 2#16)] with
      | .ok (i, _) => some i
      | .error _ => none
    else none
  | .uninitialized | .reset | .haltedByBudget | .destroyed => none

/-- The instructions that `k` steps execute, in order: those of the steps that answer a next state. -/
def executed : Nat → State → List Instr
  | 0, _ => []
  | k + 1, s =>
    match step s with
    | .next s' => s.instrAtPC.toList ++ executed k s'
    | .fault _ => []
    | .refused _ => []

/-- `K` of R71: the sum of the handler costs of the instructions executed, which is what `run` returns (R68). -/
def handlerCycles (is : List Instr) : Nat := (is.map countedCost).sum

/-- `U` of R71: the number of unassigned opcodes executed. -/
def idleCycles (is : List Instr) : Nat := is.countP isIdle

/-- Every address an instruction can form exists, and unassigned opcodes idle: no instruction can stop (R31, R55). -/
abbrev NeverStops (cfg : Config) : Prop := 65536 ≤ cfg.memSize ∧ cfg.strictOpcodes = false

/-- The arrows of the lifecycle that one step can take (R125): a command, the start of a run, a turn of its loop, its end. -/
inductive Lifecycle.Arrow : Lifecycle → Lifecycle → Prop where
  /-- A step that leaves the lifecycle state: host access, `reset` in `Reset`, or no command to come. -/
  | stay (l : Lifecycle) (h : ∀ r c, l ≠ .running r c) : Lifecycle.Arrow l l
  | resetUninitialized : Lifecycle.Arrow .uninitialized .reset
  | resetHalted : Lifecycle.Arrow .haltedByBudget .reset
  | runFromReset (b : Int) : Lifecycle.Arrow .reset (.running b 0)
  | runAgain (b : Int) : Lifecycle.Arrow .haltedByBudget (.running b 0)
  /-- A turn of the loop: it begins with at least one cycle left, takes one to six, and counts all of them or, for an idle
  cycle, none (R65, R67, R69). -/
  | turn (r : Int) (c spent counted : Nat) (h : 0 < r) (low : 1 ≤ spent) (high : spent ≤ 6)
      (count : counted = spent ∨ (spent = 1 ∧ counted = 0)) :
      Lifecycle.Arrow (.running r c) (.running (r - spent) (c + counted))
  | halt (r : Int) (c : Nat) (h : r ≤ 0) : Lifecycle.Arrow (.running r c) .haltedByBudget
  | destroyUninitialized : Lifecycle.Arrow .uninitialized .destroyed
  | destroyReset : Lifecycle.Arrow .reset .destroyed
  | destroyHalted : Lifecycle.Arrow .haltedByBudget .destroyed

/-- While a run is under way no value has been delivered, and an overshoot is at most five cycles below zero, unless the
budget was negative and nothing has been counted (R69, R70, R71). -/
def Lifecycle.CountersOk (l : Lifecycle) (answer : Option HostValue) : Prop :=
  match l with
  | .running remaining completed => answer = none ∧ (-5 ≤ remaining ∨ completed = 0)
  | _ => True

/-- The invariant every step keeps: memory in canonical form, nothing listed at or above `MEMSIZE` (R31), and the counters of
a run in their bounds. -/
structure State.Inv (s : State) : Prop where
  memWf : Memory.wf s.mem = true
  memBelow : Memory.below s.cfg.memSize s.mem = true
  counters : s.lifecycle.CountersOk s.answer

end Sys2Proof.Machine
end

