-- ==== Sys2Proof/Certificates/Slice0/Obligations.lean ====
section
/-!
DEFINITION. The statements for the provers. A statement that rests on one of the spec's own decisions (D<n>) or inferences
says so; D1, the twelve opcode values other than 0xA9, enters only where a byte of an encoding is named.
-/

open Sys2Proof Sys2Proof.Machine

/-! ## Reset -/

/-- R25: after `reset`, for every `MEMSIZE` and every setting of the other parameters, each register, each flag and each byte
is 0, execution starts at address 0, the lifecycle state is `Reset` (so there are no counters), and the parameters stay. -/
def Obligations.ResetLeavesEverythingZero : Prop :=
  ∀ cfg : Config,
    (State.resetWith cfg).a = 0x00#8 ∧ (State.resetWith cfg).x = 0x00#8 ∧ (State.resetWith cfg).y = 0x00#8 ∧
    (State.resetWith cfg).sp = 0x00#8 ∧ (State.resetWith cfg).pc = 0x0000#16 ∧
    (∀ f : Flag, (State.resetWith cfg).flags.get f = false) ∧
    (∀ addr : Nat, Memory.read (State.resetWith cfg).mem addr = 0x00#8) ∧
    (State.resetWith cfg).lifecycle = .reset ∧ (State.resetWith cfg).cfg = cfg

/-- R127, with the admission of D8: the host's `reset` command leaves the state of R25 whatever the state was, in every
lifecycle state but `Running` and `Destroyed`. -/
def Obligations.ResetCommandForgetsThePreviousState : Prop :=
  ∀ (s : State) (rest : List HostOp), s.host = .reset :: rest →
    (s.lifecycle = .uninitialized ∨ s.lifecycle = .reset ∨ s.lifecycle = .haltedByBudget) →
    step s = .next { State.resetWith s.cfg with host := rest }

/-! ## Flags -/

/-- R17: `SetZN(v)` gives `(Z, N) = (1, 0)` for 0, `(0, 0)` for 1 to 127, `(0, 1)` for 128 to 255, whatever they were; never
both; and it writes nothing else, in the flags or in the state. -/
def Obligations.SetZNLaw : Prop :=
  ∀ (s : State) (v : Byte),
    (v.toNat = 0 → (s.setZN v).flags.z = true ∧ (s.setZN v).flags.n = false) ∧
    (1 ≤ v.toNat → v.toNat ≤ 127 → (s.setZN v).flags.z = false ∧ (s.setZN v).flags.n = false) ∧
    (128 ≤ v.toNat → (s.setZN v).flags.z = false ∧ (s.setZN v).flags.n = true) ∧
    ((s.setZN v).flags.z && (s.setZN v).flags.n) = false ∧
    (s.setZN v).flags.n = v.getLsbD 7 ∧
    ∃ z n : Bool, s.setZN v = { s with flags := { s.flags with z := z, n := n } }

/-- R18: `C`, `I`, `D`, `B`, `V` are storage only: no step of the run loop writes one, none reads one (with other values
in them the step does the same and keeps those values), and each is settable and readable individually. -/
def Obligations.InertFlagsAreStorageOnly : Prop :=
  ∀ (s t : State) (remaining : Int) (completed : Nat) (c i d b v : Bool),
    s.lifecycle = .running remaining completed → step s = .next t →
    (t.flags.c = s.flags.c ∧ t.flags.i = s.flags.i ∧ t.flags.d = s.flags.d ∧ t.flags.b = s.flags.b ∧
      t.flags.v = s.flags.v) ∧
    step { s with flags := { s.flags with c := c, i := i, d := d, b := b, v := v } } =
      .next { t with flags := { t.flags with c := c, i := i, d := d, b := b, v := v } } ∧
    ∀ (f other : Flag) (bit : Bool),
      (s.flags.set f bit).get f = bit ∧ (other ≠ f → (s.flags.set f bit).get other = s.flags.get other)

/-- R17 for every load: afterwards `Z` and `N` are those of the byte loaded, which is in `A` after an LDA and in `X` after an
LDX, and never both 1. -/
def Obligations.LoadFlagsFollowTheLoadedByte : Prop :=
  ∀ (i : Instr) (s t : State), exec i s = .next t →
    (isLda i = true →
      t.flags.z = decide (t.a = 0x00#8) ∧ t.flags.n = decide (128 ≤ t.a.toNat) ∧ (t.flags.z && t.flags.n) = false) ∧
    (isLdx i = true →
      t.flags.z = decide (t.x = 0x00#8) ∧ t.flags.n = decide (128 ≤ t.x.toNat) ∧ (t.flags.z && t.flags.n) = false)

/-! ## Memory -/

/-- R33: `MemRead` gives the byte where the address exists; otherwise it is R35's outcome, which names the address with no
reduction. That outcome is the spec's decision D4 (log 13). -/
def Obligations.MemReadGivesTheByteOrNamesTheAddress : Prop :=
  ∀ (s : State) (addr : Addr),
    (addr.toNat < s.cfg.memSize → s.memRead addr = .ok (Memory.read s.mem addr.toNat)) ∧
    (s.cfg.memSize ≤ addr.toNat → s.memRead addr = .error (.memOutOfRange addr.toNat))

/-- R34: `MemWrite` makes the byte `v`, and leaves every other byte, every register, flag and counter; out of range it is the
outcome of R35, which is D4 (log 13). The canonical form of the contents, which every step keeps, is assumed. -/
def Obligations.MemWriteChangesOneByte : Prop :=
  ∀ (s : State) (addr : Nat) (v : Byte), Memory.wf s.mem = true →
    (addr < s.cfg.memSize → ∃ m : Memory,
      s.memWriteAt addr v = .ok { s with mem := m } ∧ Memory.wf m = true ∧ Memory.read m addr = v ∧
      ∀ other : Nat, other ≠ addr → Memory.read m other = Memory.read s.mem other) ∧
    (s.cfg.memSize ≤ addr → s.memWriteAt addr v = .error (.memOutOfRange addr))

/-! ## Fetch -/

/-- R60: `FetchByte` reads the byte at `PC` and advances `PC` by 1, wrapping at 0xFFFF (D10, log 9); out of range it names
`PC` (D4, log 13), and no state is answered. -/
def Obligations.FetchByteReadsAndAdvances : Prop :=
  ∀ s : State,
    (s.pc.toNat < s.cfg.memSize →
      s.fetchByte = .ok (Memory.read s.mem s.pc.toNat, { s with pc := s.pc + 1#16 })) ∧
    (s.cfg.memSize ≤ s.pc.toNat → s.fetchByte = .error (.memOutOfRange s.pc.toNat))

/-- R61: `FetchWord` reads `hi * 256 + lo`, the low byte at `PC` and the high byte one above it, and advances `PC` by 2, both
wrapping at 0xFFFF (D10, log 9). Out of range it names the missing address (R35; D4, log 13); the low byte is read first, so
it is the one named when neither exists (R42; D14, log 14). -/
def Obligations.FetchWordIsLittleEndian : Prop :=
  ∀ s : State,
    (s.pc.toNat < s.cfg.memSize → (s.pc.toNat + 1) % 65536 < s.cfg.memSize → ∃ w : Addr,
      s.fetchWord = .ok (w, { s with pc := s.pc + 2#16 }) ∧
      w.toNat = (Memory.read s.mem ((s.pc.toNat + 1) % 65536)).toNat * 256 + (Memory.read s.mem s.pc.toNat).toNat) ∧
    (s.cfg.memSize ≤ s.pc.toNat → s.fetchWord = .error (.memOutOfRange s.pc.toNat)) ∧
    (s.pc.toNat < s.cfg.memSize → s.cfg.memSize ≤ (s.pc.toNat + 1) % 65536 →
      s.fetchWord = .error (.memOutOfRange ((s.pc.toNat + 1) % 65536)))

/-- R35, R42: while an instruction is being fetched, the first byte of it whose address does not exist stops the run under
that address. The outcome is D4 (log 13), the order of the reads D14 (log 14), and the wrap at 0xFFFF D10 (log 9). `bs`
are the bytes that do exist; they are too few for an instruction exactly when decoding misses one. -/
def Obligations.FetchOutOfRangeFaults : Prop :=
  ∀ (s : State) (bs : List Byte) (e : DecodeError), s.AtInstruction → s.BytesAt s.pc bs → decode bs = .error e →
    s.cfg.memSize ≤ (s.pc.toNat + bs.length) % 65536 →
    step s = .fault (.memOutOfRange ((s.pc.toNat + bs.length) % 65536))

/-! ## Encoding -/

/-- R52: the bytes of each assigned opcode, and of a few unassigned ones, decode to what they stand for. The values other than
0xA9 are D1 (log 1). -/
def Obligations.OpcodeMapSpotWords : Prop :=
  decode [0xA9#8, 0x69#8] = .ok (.ldaImm 0x69#8, []) ∧ decode [0xA5#8, 0x48#8] = .ok (.ldaZp 0x48#8, []) ∧
  decode [0xB5#8, 0x60#8] = .ok (.ldaZpx 0x60#8, []) ∧ decode [0xAD#8, 0x34#8, 0x12#8] = .ok (.ldaAbs 0x1234#16, []) ∧
  decode [0xBD#8, 0x34#8, 0x12#8] = .ok (.ldaAbx 0x1234#16, []) ∧
  decode [0xB9#8, 0x34#8, 0x12#8] = .ok (.ldaAby 0x1234#16, []) ∧ decode [0xA1#8, 0x20#8] = .ok (.ldaIzx 0x20#8, []) ∧
  decode [0xB1#8, 0x18#8] = .ok (.ldaIzy 0x18#8, []) ∧ decode [0xA2#8, 0xE8#8] = .ok (.ldxImm 0xE8#8, []) ∧
  decode [0xA6#8, 0x10#8] = .ok (.ldxZp 0x10#8, []) ∧ decode [0xB6#8, 0xF0#8] = .ok (.ldxZpy 0xF0#8, []) ∧
  decode [0xAE#8, 0x07#8, 0x00#8] = .ok (.ldxAbs 0x0007#16, []) ∧
  decode [0xBE#8, 0xF0#8, 0x00#8] = .ok (.ldxAby 0x00F0#16, []) ∧
  decode [0x00#8, 0xA9#8] = .ok (.unassigned 0x00#8, [0xA9#8]) ∧
  decode [0xA0#8, 0x05#8] = .ok (.unassigned 0xA0#8, [0x05#8]) ∧ decode [0xEA#8] = .ok (.unassigned 0xEA#8, [])

/-- Decoding the bytes of a well-formed instruction gives it back, with every operand at every value and whatever follows.
It says that no bit is dropped, for the map of R52 (D1 and D2, log 1). -/
def Obligations.DecodeEncodeRoundTrip : Prop :=
  ∀ (i : Instr) (rest : List Byte), i.wf = true → decode (encode i ++ rest) = .ok (i, rest)

/-- The other direction: what decodes is well formed, and its bytes are those that were read, as many as its length;
for the map of R52 (D1, log 1). -/
def Obligations.DecodedInstructionsReEncode : Prop :=
  ∀ (bs rest : List Byte) (i : Instr), decode bs = .ok (i, rest) →
    i.wf = true ∧ bs = encode i ++ rest ∧ (encode i).length = i.length

/-- R51: the opcode byte alone gives the length, 1 for an unassigned byte and 2 or 3 for an assigned one; and decoding takes
exactly that many bytes, whatever they and the bytes after them are. -/
def Obligations.OpcodeByteAloneGivesTheLength : Prop :=
  ∀ op : Byte,
    (isUnassigned op = true → opcodeLength op = 1) ∧
    (isUnassigned op = false → opcodeLength op = 2 ∨ opcodeLength op = 3) ∧
    ∀ operands rest : List Byte, operands.length + 1 = opcodeLength op →
      ∃ i : Instr, decode (op :: operands ++ rest) = .ok (i, rest) ∧ i.length = opcodeLength op

/-- R56: decoding is total on the 256 byte values: an unassigned byte of R105 is the unassigned instruction, and every other
byte, with its operand bytes, is one of the thirteen. -/
def Obligations.DecodeIsTotalOnOpcodeBytes : Prop :=
  ∀ (op b1 b2 : Byte) (rest : List Byte), ∃ (i : Instr) (tail : List Byte),
    decode (op :: b1 :: b2 :: rest) = .ok (i, tail) ∧ i.wf = true ∧
    (isUnassigned op = true → i = .unassigned op) ∧ (isUnassigned op = false → IsAssigned i)

/-! ## The step -/

/-- R64, R65, R67: while a run is under way with `remaining > 0` and the bytes at `PC` decode to `i`, the step is `exec i`
on that very state. The bytes are those from `PC` up, wrapping at 0xFFFF (D10, log 9). Nothing is added around it: `exec`
advances `PC` past the instruction and updates the counters itself. -/
def Obligations.StepRunsTheDecodedInstruction : Prop :=
  ∀ (s : State) (bs rest : List Byte) (i : Instr), s.AtInstruction → s.BytesAt s.pc bs →
    decode bs = .ok (i, rest) → step s = exec i s

/-! ## LDA: what each form does -/

/-- R91 whole: `A9 b` loads `b`, costs 2, advances `PC` by 2 (its wrap at 0xFFFF is D10, log 9), sets `Z` and `N` from
`b`, and changes nothing else. -/
def Obligations.LdaImmediate : Prop :=
  ∀ (b : Byte) (s : State),
    encode (.ldaImm b) = [0xA9#8, b] ∧ exec (.ldaImm b) s = .next (s.afterLda 2 2 b)

/-- R92 but for its opcode value (the fault is D4, log 13, and the wrap of `PC` D10, log 9): the byte at `b`; cost 3,
length 2. -/
def Obligations.LdaZeroPage : Prop :=
  ∀ (b : Byte) (s : State),
    (b.toNat < s.cfg.memSize → exec (.ldaZp b) s = .next (s.afterLda 2 3 (Memory.read s.mem b.toNat))) ∧
    (s.cfg.memSize ≤ b.toNat → exec (.ldaZp b) s = .fault (.memOutOfRange b.toNat))

/-- R93 but for its opcode value (the fault is D4, log 13, and the wrap of `PC` D10, log 9): the byte at `(b + X) mod
256`; cost 4, length 2. -/
def Obligations.LdaZeroPageX : Prop :=
  ∀ (b : Byte) (s : State) (ea : Nat), ea = (b.toNat + s.x.toNat) % 256 →
    (ea < s.cfg.memSize → exec (.ldaZpx b) s = .next (s.afterLda 2 4 (Memory.read s.mem ea))) ∧
    (s.cfg.memSize ≤ ea → exec (.ldaZpx b) s = .fault (.memOutOfRange ea))

/-- R94 but for its opcode value (the fault is D4, log 13, and the wrap of `PC` D10, log 9): the byte at `w`; cost 4,
length 3. -/
def Obligations.LdaAbsolute : Prop :=
  ∀ (w : Addr) (s : State),
    (w.toNat < s.cfg.memSize → exec (.ldaAbs w) s = .next (s.afterLda 3 4 (Memory.read s.mem w.toNat))) ∧
    (s.cfg.memSize ≤ w.toNat → exec (.ldaAbs w) s = .fault (.memOutOfRange w.toNat))

/-- R95 but for its opcode value (the fault is D4, log 13, and the wrap of `PC` D10, log 9): the byte at `(w + X) mod
65536`; cost 4 always, length 3. -/
def Obligations.LdaAbsoluteX : Prop :=
  ∀ (w : Addr) (s : State) (ea : Nat), ea = (w.toNat + s.x.toNat) % 65536 →
    (ea < s.cfg.memSize → exec (.ldaAbx w) s = .next (s.afterLda 3 4 (Memory.read s.mem ea))) ∧
    (s.cfg.memSize ≤ ea → exec (.ldaAbx w) s = .fault (.memOutOfRange ea))

/-- R96 but for its opcode value (the fault is D4, log 13, and the wrap of `PC` D10, log 9): the byte at `(w + Y) mod
65536`; cost 4 always, length 3. -/
def Obligations.LdaAbsoluteY : Prop :=
  ∀ (w : Addr) (s : State) (ea : Nat), ea = (w.toNat + s.y.toNat) % 65536 →
    (ea < s.cfg.memSize → exec (.ldaAby w) s = .next (s.afterLda 3 4 (Memory.read s.mem ea))) ∧
    (s.cfg.memSize ≤ ea → exec (.ldaAby w) s = .fault (.memOutOfRange ea))

/-- R97 but for its opcode value (the fault is D4, log 13, and the wrap of `PC` D10, log 9): the ONE byte at `(b + X) mod
256` is the address of the byte loaded; cost 6, length 2. -/
def Obligations.LdaIndexedIndirect : Prop :=
  ∀ (b : Byte) (s : State) (p ea : Nat), p = (b.toNat + s.x.toNat) % 256 → ea = (Memory.read s.mem p).toNat →
    (p < s.cfg.memSize → ea < s.cfg.memSize →
      exec (.ldaIzx b) s = .next (s.afterLda 2 6 (Memory.read s.mem ea))) ∧
    (p < s.cfg.memSize → s.cfg.memSize ≤ ea → exec (.ldaIzx b) s = .fault (.memOutOfRange ea)) ∧
    (s.cfg.memSize ≤ p → exec (.ldaIzx b) s = .fault (.memOutOfRange p))

/-- R98 but for its opcode value, under both settings of `INDY_WRAP8` (D3, log 3; D4 and D10, log 13 and log 9): the ONE
byte at `b`, plus `Y` (in 9 bits, or modulo 256), is the address of the byte loaded; cost 5, length 2. -/
def Obligations.LdaIndirectIndexed : Prop :=
  ∀ (b : Byte) (s : State) (sum ea : Nat), sum = (Memory.read s.mem b.toNat).toNat + s.y.toNat →
    ea = (if s.cfg.indyWrap8 = true then sum % 256 else sum) →
    (b.toNat < s.cfg.memSize → ea < s.cfg.memSize →
      exec (.ldaIzy b) s = .next (s.afterLda 2 5 (Memory.read s.mem ea))) ∧
    (b.toNat < s.cfg.memSize → s.cfg.memSize ≤ ea → exec (.ldaIzy b) s = .fault (.memOutOfRange ea)) ∧
    (s.cfg.memSize ≤ b.toNat → exec (.ldaIzy b) s = .fault (.memOutOfRange b.toNat))

/-! ## LDX: what each form does -/

/-- R100 but for its opcode value (the wrap of `PC` is D10, log 9): loads `b`; cost 2, length 2. -/
def Obligations.LdxImmediate : Prop :=
  ∀ (b : Byte) (s : State), exec (.ldxImm b) s = .next (s.afterLdx 2 2 b)

/-- R101 but for its opcode value (the fault is D4, log 13, and the wrap of `PC` D10, log 9): the byte at `b`; cost 3,
length 2. -/
def Obligations.LdxZeroPage : Prop :=
  ∀ (b : Byte) (s : State),
    (b.toNat < s.cfg.memSize → exec (.ldxZp b) s = .next (s.afterLdx 2 3 (Memory.read s.mem b.toNat))) ∧
    (s.cfg.memSize ≤ b.toNat → exec (.ldxZp b) s = .fault (.memOutOfRange b.toNat))

/-- R102 but for its opcode value (the fault is D4, log 13, and the wrap of `PC` D10, log 9): the byte at `(b + Y) mod
256`; cost 4, length 2. -/
def Obligations.LdxZeroPageY : Prop :=
  ∀ (b : Byte) (s : State) (ea : Nat), ea = (b.toNat + s.y.toNat) % 256 →
    (ea < s.cfg.memSize → exec (.ldxZpy b) s = .next (s.afterLdx 2 4 (Memory.read s.mem ea))) ∧
    (s.cfg.memSize ≤ ea → exec (.ldxZpy b) s = .fault (.memOutOfRange ea))

/-- R103 but for its opcode value (the fault is D4, log 13, and the wrap of `PC` D10, log 9): the byte at `w`; cost 4,
length 3. -/
def Obligations.LdxAbsolute : Prop :=
  ∀ (w : Addr) (s : State),
    (w.toNat < s.cfg.memSize → exec (.ldxAbs w) s = .next (s.afterLdx 3 4 (Memory.read s.mem w.toNat))) ∧
    (s.cfg.memSize ≤ w.toNat → exec (.ldxAbs w) s = .fault (.memOutOfRange w.toNat))

/-- R104 but for its opcode value (the fault is D4, log 13, and the wrap of `PC` D10, log 9): the byte at `(w + Y) mod
65536`; cost 4 always, length 3. -/
def Obligations.LdxAbsoluteY : Prop :=
  ∀ (w : Addr) (s : State) (ea : Nat), ea = (w.toNat + s.y.toNat) % 65536 →
    (ea < s.cfg.memSize → exec (.ldxAby w) s = .next (s.afterLdx 3 4 (Memory.read s.mem ea))) ∧
    (s.cfg.memSize ≤ ea → exec (.ldxAby w) s = .fault (.memOutOfRange ea))

/-! ## Unassigned opcodes -/

/-- R106, with its readings D18 and D19 (log 8) and the wrap D10 (log 9): by default every unassigned byte is one byte
long, idles one cycle and changes nothing but `PC` and `remaining`. -/
def Obligations.UnassignedOpcodeIdles : Prop :=
  ∀ (op : Byte) (s : State), s.cfg.strictOpcodes = false →
    encode (.unassigned op) = [op] ∧ exec (.unassigned op) s = .next s.afterIdle

/-- R107 (decision D6, log 13; the wrap of `PC` is D10, log 9): in strict mode an unassigned byte ends the run with the
byte and its address, `PC` advanced by 1 and nothing else changed, the counters included. -/
def Obligations.UnassignedOpcodeFailsFastInStrictMode : Prop :=
  ∀ (op : Byte) (s : State), s.cfg.strictOpcodes = true →
    exec (.unassigned op) s = .fault (.illegalOpcode op s.pc { s with pc := s.pc + 1#16 })

/-- R107, "Nothing else differs between the two settings" (D6, log 13): an assigned instruction does the same in strict
mode. -/
def Obligations.StrictModeChangesNoAssignedInstruction : Prop :=
  ∀ (i : Instr) (s : State) (strict : Bool), IsAssigned i →
    (∀ t : State, exec i s = .next t →
      exec i { s with cfg := { s.cfg with strictOpcodes := strict } } =
        .next { t with cfg := { t.cfg with strictOpcodes := strict } }) ∧
    (∀ f : Fault, exec i s = .fault f →
      exec i { s with cfg := { s.cfg with strictOpcodes := strict } } = .fault f)

/-! ## The contracts of the two families -/

/-- R90 whole, for all eight forms (their pairing is D2, log 1; the fault D4, log 13; the wrap of `PC` D10, log 9): the
byte the mode gives goes into `A`, `Z` and `N` follow it, `PC` and the counters advance by the form's length and cost,
nothing else changes; the one other outcome is an address that does not exist; and the old value of `A` has no influence
on anything. -/
def Obligations.EveryLdaFollowsTheContract : Prop :=
  ∀ (i : Instr) (s : State), isLda i = true →
    (∀ v : Byte, effectiveValue i s = .ok v → exec i s = .next (s.afterLda i.length (budgetCost i) v)) ∧
    (∀ addr : Nat, effectiveValue i s = .error addr →
      s.cfg.memSize ≤ addr ∧ exec i s = .fault (.memOutOfRange addr)) ∧
    ∀ old : Byte, exec i { s with a := old } = exec i s

/-- R99 whole, for all five forms (their pairing is D2, log 1; the fault D4, log 13; the wrap of `PC` D10, log 9): as R90
with `X` as the target; and the old value of `X` never enters. -/
def Obligations.EveryLdxFollowsTheContract : Prop :=
  ∀ (i : Instr) (s : State), isLdx i = true →
    (∀ v : Byte, effectiveValue i s = .ok v → exec i s = .next (s.afterLdx i.length (budgetCost i) v)) ∧
    (∀ addr : Nat, effectiveValue i s = .error addr →
      s.cfg.memSize ≤ addr ∧ exec i s = .fault (.memOutOfRange addr)) ∧
    ∀ old : Byte, exec i { s with x := old } = exec i s

/-! ## Frames and costs, over all instructions -/

/-- What an instruction that completes leaves unchanged: every byte of memory (R45), `Y`, `SP`, the five inert flags
(R18), the parameters, the host's list and answer; `A` but for an LDA, `X` but for an LDX, `Z` and `N` for an idle cycle
(R28). -/
def Obligations.InstructionFrame : Prop :=
  ∀ (i : Instr) (s t : State), exec i s = .next t →
    (∀ addr : Nat, Memory.read t.mem addr = Memory.read s.mem addr) ∧
    t.y = s.y ∧ t.sp = s.sp ∧ t.flags.c = s.flags.c ∧ t.flags.i = s.flags.i ∧ t.flags.d = s.flags.d ∧
    t.flags.b = s.flags.b ∧ t.flags.v = s.flags.v ∧ t.cfg = s.cfg ∧ t.host = s.host ∧ t.answer = s.answer ∧
    (isLda i = false → t.a = s.a) ∧ (isLdx i = false → t.x = s.x) ∧
    (isLda i = false → isLdx i = false → t.flags = s.flags)

/-- R14, R51, R86, with the wrap of D10: an instruction that completes leaves `PC` past its last byte, whatever it read. -/
def Obligations.PCAdvancesByTheLength : Prop :=
  ∀ (i : Instr) (s t : State), exec i s = .next t → t.pc.toNat = (s.pc.toNat + i.length) % 65536

/-- R138, R87: what each instruction takes from `remaining` and counts in `completed` is its row of the timing table,
whatever the data, the registers or the pages (the idle cycle's row is D18). -/
def Obligations.CyclesFollowTheTimingTable : Prop :=
  ∀ (i : Instr) (s t : State) (remaining : Int) (completed : Nat), exec i s = .next t →
    s.lifecycle = .running remaining completed →
    t.lifecycle = .running (remaining - budgetCost i) (completed + countedCost i)

/-- R10, R12, R15: `A`, `SP` and the seven flags have no influence on what an instruction does to the rest of the machine. -/
def Obligations.InertStateHasNoInfluence : Prop :=
  ∀ (i : Instr) (s t : State) (a sp : Byte) (g : Flags), exec i s = .next t →
    exec i { s with a := a, sp := sp, flags := g } =
      .next { t with
        a := if isLda i = true then t.a else a
        sp := sp
        flags := if isLda i = true ∨ isLdx i = true then { g with z := t.flags.z, n := t.flags.n } else g }

/-- R8, R110: an instruction stops only by an address that does not exist or, in strict mode, by an unassigned byte; it is
never refused. The outcomes are D4 and D6 (log 13); the wrap of `PC` is D10 (log 9). -/
def Obligations.InstructionsStopOnlyAsNamed : Prop :=
  ∀ (i : Instr) (s : State),
    (∀ r : Refusal, exec i s ≠ .refused r) ∧
    ∀ f : Fault, exec i s = .fault f →
      (∃ addr : Nat, f = .memOutOfRange addr ∧ s.cfg.memSize ≤ addr ∧ addr < 65536 ∧ IsAssigned i) ∨
      (∃ op : Byte, i = .unassigned op ∧ s.cfg.strictOpcodes = true ∧
        f = .illegalOpcode op s.pc { s with pc := s.pc + 1#16 })

/-- R31, R55: with `MEMSIZE` at least 65536 and strict mode off, every instruction completes in every state, and so does every
step of a run. -/
def Obligations.FullMemoryNeverStops : Prop :=
  ∀ s : State, NeverStops s.cfg →
    (∀ i : Instr, ∃ t : State, exec i s = .next t) ∧ (s.AtInstruction → ∃ t : State, step s = .next t)

/-! ## Addressing modes -/

/-- R78 to R85, in natural numbers: the effective address of each mode. An indirect mode has one exactly where its pointer's
address exists, and otherwise names that address (D4, log 13). The sum of indirect-indexed is `indyWrap8`'s (D3, log 3): 0xFF
plus 0xFF is 0x01FE, or 0x00FE with the wrap. The zero-page and indirect forms cannot leave their ranges (R40), and the two
settings agree while the sum stays below 256. -/
def Obligations.EffectiveAddresses : Prop :=
  ∀ (s : State) (b : Byte) (w : Addr) (p sum : Nat), p = (b.toNat + s.x.toNat) % 256 →
    sum = (Memory.read s.mem b.toNat).toNat + s.y.toNat →
    (eaZp b).toNat = b.toNat ∧ (eaZpx b s).toNat = (b.toNat + s.x.toNat) % 256 ∧
    (eaZpy b s).toNat = (b.toNat + s.y.toNat) % 256 ∧ eaAbs w = w ∧
    (eaAbx w s).toNat = (w.toNat + s.x.toNat) % 65536 ∧ (eaAby w s).toNat = (w.toNat + s.y.toNat) % 65536 ∧
    (p < s.cfg.memSize → ∃ ea : Addr,
      eaIzx b s = .ok ea ∧ ea.toNat = (Memory.read s.mem p).toNat ∧ ea.toNat ≤ 255) ∧
    (s.cfg.memSize ≤ p → eaIzx b s = .error (.memOutOfRange p)) ∧
    (b.toNat < s.cfg.memSize → ∃ ea : Addr,
      eaIzy b s = .ok ea ∧ ea.toNat = (if s.cfg.indyWrap8 = true then sum % 256 else sum) ∧
      ea.toNat ≤ 510 ∧ (s.cfg.indyWrap8 = true → ea.toNat ≤ 255) ∧ (sum < 256 → ea.toNat = sum)) ∧
    (s.cfg.memSize ≤ b.toNat → eaIzy b s = .error (.memOutOfRange b.toNat))

/-- R84, R85: each indirect mode depends on ONE byte of memory, the pointer byte; no other byte of memory, the one after it
included, has any influence on the effective address. -/
def Obligations.IndirectModesReadOnePointerByte : Prop :=
  ∀ (s : State) (b : Byte) (m : Memory),
    (Memory.read m ((b.toNat + s.x.toNat) % 256) = Memory.read s.mem ((b.toNat + s.x.toNat) % 256) →
      eaIzx b { s with mem := m } = eaIzx b s) ∧
    (Memory.read m b.toNat = Memory.read s.mem b.toNat → eaIzy b { s with mem := m } = eaIzy b s)

/-! ## The run loop -/

/-- R63, R75 (re-entry is D8): `run` starts with fresh counters, `remaining` the budget and `completed` 0, and changes no
register, flag or byte. -/
def Obligations.RunStartsWithFreshCounters : Prop :=
  ∀ (s : State) (budget : Int) (rest : List HostOp), s.Idle → s.host = .run budget :: rest →
    step s = .next { s with lifecycle := .running budget 0, host := rest, answer := none }

/-- R68, R129: when the loop condition fails the run ends, `completed` is what the host is given, and nothing else changes. -/
def Obligations.RunEndReturnsCompleted : Prop :=
  ∀ (s : State) (remaining : Int) (completed : Nat), s.lifecycle = .running remaining completed → remaining ≤ 0 →
    step s = .next { s with lifecycle := .haltedByBudget, answer := some (.total completed) }

/-- R70 (derived by the spec): a budget of zero or below fetches nothing, changes nothing and returns 0. -/
def Obligations.ZeroOrNegativeBudgetReturnsZero : Prop :=
  ∀ (s : State) (budget : Int) (rest : List HostOp), s.Idle → s.host = .run budget :: rest → budget ≤ 0 →
    steps 2 s = .next { s with lifecycle := .haltedByBudget, host := rest, answer := some (.total 0) }

/-- R69: an instruction that starts with `remaining > 0` executes whole, `remaining` falls by its cost, as low as -5; and
a run of budget 1 whose next instruction costs `c` executes exactly that instruction and returns exactly `c`. -/
def Obligations.NoInstructionIsTruncated : Prop :=
  ∀ (s t : State) (bs rest : List Byte) (i : Instr) (remaining : Int) (completed : Nat),
    s.lifecycle = .running remaining completed → 0 < remaining → s.BytesAt s.pc bs → decode bs = .ok (i, rest) →
    IsAssigned i → exec i s = .next t →
    step s = .next t ∧ t.lifecycle = .running (remaining - budgetCost i) (completed + budgetCost i) ∧
    -5 ≤ remaining - budgetCost i ∧
    (remaining = 1 → completed = 0 →
      steps 2 s = .next { t with lifecycle := .haltedByBudget, answer := some (.total (budgetCost i)) })

/-- R68, R71 (R71 is derived by the spec, and rests on D18, log 8): every run of budget `b` ends after executing at most
`max(b, 0)` instructions, by its budget or by a fault. Where it ends by its budget, it returns `K`, the sum of the handler
costs of the instructions it executed, in which no idle cycle is counted; with `U` the number of unassigned opcodes it
executed, `b ≤ K + U ≤ b + 5` for `b ≥ 1`, and nothing was executed otherwise. A fault is an address that does not exist
(D4) or, in strict mode only, an unassigned opcode (D6, log 13). -/
def Obligations.EveryRunEnds : Prop :=
  ∀ (s : State) (b : Int), s.lifecycle = .running b 0 →
    ∃ k : Nat, k ≤ b.toNat + 1 ∧
      ((∃ (t : State) (K U : Nat), steps k s = .next t ∧ t.lifecycle = .haltedByBudget ∧
          K = handlerCycles (executed k s) ∧ U = idleCycles (executed k s) ∧
          t.answer = some (.total K) ∧ (executed k s).length + 1 = k ∧
          (b ≤ 0 → executed k s = []) ∧ (1 ≤ b → b ≤ K + U ∧ K + U ≤ b + 5)) ∨
        ∃ f : Fault, steps k s = .fault f ∧
          ((∃ addr : Nat, f = .memOutOfRange addr ∧ s.cfg.memSize ≤ addr) ∨
            (s.cfg.strictOpcodes = true ∧ ∃ (op : Byte) (addr : Addr) (left : State), f = .illegalOpcode op addr left)))

/-- R68, R71, R45, R135 (the last three derived by the spec; the wrap of `PC` is D10, log 9): where every address exists
and strict mode is off, every run ends by its budget, with a total of at most `b + 5`, memory unchanged byte for byte, and
`PC` advanced over at least 1 and at most `b + 2` instruction bytes. -/
def Obligations.FullMemoryRunCompletes : Prop :=
  ∀ (s : State) (b : Int), s.lifecycle = .running b 0 → NeverStops s.cfg → 1 ≤ b →
    ∃ (k : Nat) (t : State) (total fetched : Nat), k ≤ b.toNat + 1 ∧ steps k s = .next t ∧
      t.lifecycle = .haltedByBudget ∧ t.answer = some (.total total) ∧ (total : Int) ≤ b + 5 ∧
      (∀ addr : Nat, Memory.read t.mem addr = Memory.read s.mem addr) ∧
      t.pc = s.pc + BitVec.ofNat 16 fetched ∧ 1 ≤ fetched ∧ (fetched : Int) ≤ b + 2

/-- R133: while a run is under way the host has no move: what it means to command later changes nothing of a step, and a step
takes no command. -/
def Obligations.HostHasNoMoveDuringARun : Prop :=
  ∀ (s t : State) (remaining : Int) (completed : Nat) (later : List HostOp),
    s.lifecycle = .running remaining completed → step s = .next t →
    t.host = s.host ∧ step { s with host := later } = .next { t with host := later }

/-! ## The host's commands -/

/-- R131, R39: a byte the host writes is the byte it reads, and no other byte, register, flag or parameter changes. -/
def Obligations.HostReadsTheByteItWrote : Prop :=
  ∀ (s : State) (addr : Nat) (v : Byte) (rest : List HostOp), s.Idle → Memory.wf s.mem = true →
    addr < s.cfg.memSize → s.host = .writeMem addr v :: .readMem addr :: rest →
    ∃ m : Memory, steps 2 s = .next { s with mem := m, host := rest, answer := some (.byte v) } ∧
      ∀ other : Nat, other ≠ addr → Memory.read m other = Memory.read s.mem other

/-- R35, R131 (decision D4): a host access at or above `MEMSIZE` stops under its address; it is not reduced, not ignored, and
answers no value. -/
def Obligations.HostAccessOutOfRangeFaults : Prop :=
  ∀ (s : State) (addr : Nat) (v : Byte) (rest : List HostOp), s.Idle → s.cfg.memSize ≤ addr →
    (s.host = .readMem addr :: rest ∨ s.host = .writeMem addr v :: rest) →
    step s = .fault (.memOutOfRange addr)

/-- R132 (decision D9): the host reads back the register it wrote, each of `A`, `X`, `Y`, `SP`, and changes no other
register. -/
def Obligations.HostRegisterAccess : Prop :=
  ∀ (s : State) (r : Reg8) (v : Byte) (rest : List HostOp), s.Idle →
    s.host = .writeReg r v :: .readReg r :: rest →
    ∃ t : State, steps 2 s = .next t ∧ t.answer = some (.byte v) ∧ t.readReg r = v ∧
      (∀ other : Reg8, other ≠ r → t.readReg other = s.readReg other) ∧
      t.pc = s.pc ∧ t.flags = s.flags ∧ t.mem = s.mem ∧ t.cfg = s.cfg ∧ t.lifecycle = s.lifecycle ∧ t.host = rest

/-- R132 (decision D9): the host reads back the `PC` it wrote, and changes nothing else. -/
def Obligations.HostProgramCounterAccess : Prop :=
  ∀ (s : State) (v : Addr) (rest : List HostOp), s.Idle → s.host = .writePC v :: .readPC :: rest →
    steps 2 s = .next { s with pc := v, host := rest, answer := some (.word v) }

/-- R15, R18, R132: each flag is settable and readable individually: the host reads back the flag it wrote, and changes no
other flag, register or byte. -/
def Obligations.HostFlagAccess : Prop :=
  ∀ (s : State) (f : Flag) (bit : Bool) (rest : List HostOp), s.Idle →
    s.host = .writeFlag f bit :: .readFlag f :: rest →
    ∃ g : Flags, steps 2 s = .next { s with flags := g, host := rest, answer := some (.bit bit) } ∧
      g.get f = bit ∧ ∀ other : Flag, other ≠ f → g.get other = s.flags.get other

/-- R26, R125, R128 (decision D5): before the first `reset` a run and every host read is refused; host writes of
registers, flags and existing bytes are admitted and leave the unit uninitialized. -/
def Obligations.BeforeResetNothingRunsAndNothingIsRead : Prop :=
  ∀ (s : State) (op : HostOp) (rest : List HostOp), s.lifecycle = .uninitialized → s.host = op :: rest →
    (op.needsReset = true → step s = .refused .uninitialized) ∧
    (op.needsReset = false → op ≠ .reset → op ≠ .destroy →
      (∀ (addr : Nat) (v : Byte), op = .writeMem addr v → addr < s.cfg.memSize) →
      ∃ t : State, step s = .next t ∧ t.lifecycle = .uninitialized ∧ t.host = rest)

/-- R130 (decision D17): `destroy` is admitted in every state but `Running`, and after it every command is refused. -/
def Obligations.DestroyedUnitRefusesEverything : Prop :=
  ∀ (s : State) (op : HostOp) (rest : List HostOp), s.host = op :: rest →
    (s.lifecycle = .destroyed → step s = .refused .destroyed) ∧
    (op = .destroy → (s.lifecycle = .uninitialized ∨ s.lifecycle = .reset ∨ s.lifecycle = .haltedByBudget) →
      step s = .next { s with lifecycle := .destroyed, host := rest, answer := none })

/-- R125 (completed by D8): one step takes the lifecycle along an arrow of the table, and along no other. -/
def Obligations.LifecycleFollowsItsArrows : Prop :=
  ∀ s t : State, step s = .next t → Lifecycle.Arrow s.lifecycle t.lifecycle

/-- R5: no step changes a parameter. -/
def Obligations.ParametersNeverChange : Prop :=
  ∀ s t : State, step s = .next t → t.cfg = s.cfg

/-! ## The invariant -/

/-- Every step keeps the invariant: memory in canonical form and inside `MEMSIZE` (R31), and the counters within the
overshoot of R69. -/
def Obligations.StepKeepsTheInvariant : Prop :=
  ∀ s t : State, s.Inv → step s = .next t → t.Inv

/-- The invariant holds after `reset` for all parameters, and of every unit just created, whatever its contents (R25,
R126). -/
def Obligations.ResetAndCreateMeetTheInvariant : Prop :=
  (∀ cfg : Config, (State.resetWith cfg).Inv) ∧ State.reset.Inv ∧
  ∀ (cfg : Config) (p : PowerOn) (host : List HostOp), (State.create cfg p host).Inv
end

