-- ==== Sys2Proof/Laws/Decode.lean ====
section
/-!
SUPPORT. The opcode map against the ranges of R105, and the byte order of an operand word.
-/

namespace Sys2Proof

/-- The bytes the map lacks are exactly those of R105's ranges. -/
theorem isUnassigned_eq_isNone : ∀ op : Byte, isUnassigned op = (shapeOf op).isNone := by decide

theorem shapeOf_of_isUnassigned {op : Byte} (h : isUnassigned op = true) : shapeOf op = none := by
  rw [isUnassigned_eq_isNone] at h; exact Option.isNone_iff_eq_none.1 h

theorem isUnassigned_of_shapeOf {op : Byte} (h : shapeOf op = none) : isUnassigned op = true := by
  rw [isUnassigned_eq_isNone, h]; rfl

/-- A shape found is a row of the map (R52). -/
theorem shapeOf_mem {op : Byte} {sh : Shape} (h : shapeOf op = some sh) : (op, sh) ∈ opcodeMap := by
  unfold shapeOf at h
  generalize opcodeMap = rows at h ⊢
  induction rows with
  | nil => simp at h
  | cons r rows ih =>
    obtain ⟨k, sh'⟩ := r
    by_cases hk : op = k
    · subst hk
      simp only [List.lookup, beq_self_eq_true, Option.some.injEq] at h
      simp [h]
    · have hb : (op == k) = false := by simpa using hk
      simp only [List.lookup, hb] at h
      exact List.mem_cons_of_mem _ (ih h)

/-- Low byte first, and nothing lost (R36, R50). -/
@[simp] theorem wordOfBytes_low_high (w : Addr) : wordOfBytes (lowByte w) (highByte w) = w := by
  apply BitVec.eq_of_toNat_eq
  have := w.isLt
  simp only [wordOfBytes, lowByte, highByte, BitVec.toNat_append, BitVec.toNat_setWidth, BitVec.toNat_ushiftRight,
    Nat.shiftRight_eq_div_pow]
  rw [← Nat.shiftLeft_add_eq_or_of_lt (by omega), Nat.shiftLeft_eq]
  omega

/-- The word of two bytes is `hi * 256 + lo` (R6, R50). -/
theorem wordOfBytes_toNat (lo hi : Byte) : (wordOfBytes lo hi).toNat = hi.toNat * 256 + lo.toNat := by
  have := lo.isLt
  simp only [wordOfBytes, BitVec.toNat_append]
  rw [← Nat.shiftLeft_add_eq_or_of_lt (by omega), Nat.shiftLeft_eq]

@[simp] theorem lowByte_wordOfBytes (lo hi : Byte) : lowByte (wordOfBytes lo hi) = lo := by
  apply BitVec.eq_of_toNat_eq
  have := lo.isLt
  simp only [lowByte, BitVec.toNat_setWidth, wordOfBytes_toNat]; omega

@[simp] theorem highByte_wordOfBytes (lo hi : Byte) : highByte (wordOfBytes lo hi) = hi := by
  apply BitVec.eq_of_toNat_eq
  have := lo.isLt
  have := hi.isLt
  simp only [highByte, BitVec.toNat_setWidth, BitVec.toNat_ushiftRight, Nat.shiftRight_eq_div_pow, wordOfBytes_toNat]
  omega

/-- Every step of decoding, once: a byte the map lacks is one instruction byte, and a row of the map takes its operand. -/
theorem decode_unassigned {op : Byte} (h : shapeOf op = none) (rest : List Byte) :
    decode (op :: rest) = .ok (.unassigned op, rest) := by
  simp [decode, h]

theorem decode_opB {op : Byte} {make : Byte → Instr} (h : shapeOf op = some (.opB make)) (b : Byte)
    (rest : List Byte) : decode (op :: b :: rest) = .ok (make b, rest) := by
  simp [decode, h]

theorem decode_opW {op : Byte} {make : Addr → Instr} (h : shapeOf op = some (.opW make)) (lo hi : Byte)
    (rest : List Byte) : decode (op :: lo :: hi :: rest) = .ok (make (wordOfBytes lo hi), rest) := by
  simp [decode, h]

/-- What decoding can answer: the three formats of R49, and nothing else. -/
theorem decode_ok_cases {bs rest : List Byte} {i : Instr} (h : decode bs = .ok (i, rest)) :
    (∃ op, bs = op :: rest ∧ shapeOf op = none ∧ i = .unassigned op) ∨
    (∃ op make b, bs = op :: b :: rest ∧ shapeOf op = some (.opB make) ∧ i = make b) ∨
    (∃ op make lo hi, bs = op :: lo :: hi :: rest ∧ shapeOf op = some (.opW make) ∧
      i = make (wordOfBytes lo hi)) := by
  cases bs with
  | nil => simp [decode] at h
  | cons op tl =>
    cases hs : shapeOf op with
    | none =>
      simp only [decode, hs, Except.ok.injEq, Prod.mk.injEq] at h
      obtain ⟨rfl, rfl⟩ := h
      exact .inl ⟨op, rfl, hs, rfl⟩
    | some sh =>
      cases sh with
      | opB make =>
        cases tl with
        | nil => simp [decode, hs] at h
        | cons b tl =>
          simp only [decode, hs, Except.ok.injEq, Prod.mk.injEq] at h
          obtain ⟨rfl, rfl⟩ := h
          exact .inr (.inl ⟨op, make, b, rfl, hs, rfl⟩)
      | opW make =>
        match tl, h with
        | [], h => simp [decode, hs] at h
        | [_], h => simp [decode, hs] at h
        | lo :: hi :: tl, h =>
          simp only [decode, hs, Except.ok.injEq, Prod.mk.injEq] at h
          obtain ⟨rfl, rfl⟩ := h
          exact .inr (.inr ⟨op, make, lo, hi, rfl, hs, rfl⟩)

end Sys2Proof
end

