-- ==== Sys2Proof/Laws/Memory.lean ====
section
/-!
SUPPORT. Memory contents: every operation keeps the canonical form and the bound, a read after a write gives the byte
written, and a write leaves every other byte.
-/

namespace Sys2Proof.Machine

@[simp] theorem Memory.read_nil (a : Nat) : Memory.read [] a = 0x00#8 := rfl

theorem Memory.wfFrom_cons_iff (lo k : Nat) (b : Byte) (m : Memory) :
    Memory.wfFrom lo ((k, b) :: m) = true ↔ lo ≤ k ∧ b ≠ 0x00#8 ∧ Memory.wfFrom (k + 1) m = true := by
  simp [Memory.wfFrom, and_assoc]

/-- A lower bound of the listed addresses can be lowered. -/
theorem Memory.wfFrom_mono {lo lo' : Nat} (h : lo' ≤ lo) {m : Memory} (hm : Memory.wfFrom lo m = true) :
    Memory.wfFrom lo' m = true := by
  cases m with
  | nil => rfl
  | cons c m =>
    obtain ⟨h1, h2, h3⟩ := (Memory.wfFrom_cons_iff lo c.1 c.2 m).1 hm
    exact (Memory.wfFrom_cons_iff lo' c.1 c.2 m).2 ⟨h.trans h1, h2, h3⟩

/-- Below the lower bound nothing is listed. -/
theorem Memory.read_below {lo a : Nat} (h : a < lo) {m : Memory} (hm : Memory.wfFrom lo m = true) :
    Memory.read m a = 0x00#8 := by
  induction m generalizing lo with
  | nil => rfl
  | cons c m ih =>
    obtain ⟨h1, -, h3⟩ := (Memory.wfFrom_cons_iff lo c.1 c.2 m).1 hm
    have hne : c.1 ≠ a := by omega
    simp only [Memory.read, hne, if_false]
    exact ih (by omega) h3

theorem Memory.wfFrom_write {lo a : Nat} (ha : lo ≤ a) (v : Byte) {m : Memory} (hm : Memory.wfFrom lo m = true) :
    Memory.wfFrom lo (Memory.write m a v) = true := by
  induction m generalizing lo with
  | nil =>
    by_cases hv : v = 0x00#8
    · simp [Memory.write, hv, Memory.wfFrom]
    · simp [Memory.write, hv, Memory.wfFrom, ha]
  | cons c m ih =>
    obtain ⟨h1, h2, h3⟩ := (Memory.wfFrom_cons_iff lo c.1 c.2 m).1 hm
    simp only [Memory.write]
    split
    · split
      · exact hm
      · rename_i hlt hv
        exact (Memory.wfFrom_cons_iff ..).2 ⟨ha, hv, (Memory.wfFrom_cons_iff ..).2 ⟨hlt, h2, h3⟩⟩
    · split
      · split
        · exact Memory.wfFrom_mono (by omega) h3
        · rename_i _ heq hv
          subst heq
          exact (Memory.wfFrom_cons_iff ..).2 ⟨ha, hv, h3⟩
      · exact (Memory.wfFrom_cons_iff ..).2 ⟨h1, h2, ih (by omega) h3⟩

/-- A write keeps the canonical form. -/
theorem Memory.wf_write (m : Memory) (a : Nat) (v : Byte) (hm : Memory.wf m = true) :
    Memory.wf (Memory.write m a v) = true :=
  Memory.wfFrom_write (Nat.zero_le a) v hm

theorem Memory.wfFrom_ofBytesFrom (a : Nat) (vs : List Byte) :
    Memory.wfFrom a (Memory.ofBytesFrom a vs) = true := by
  induction vs generalizing a with
  | nil => rfl
  | cons v vs ih =>
    simp only [Memory.ofBytesFrom]
    split
    · exact Memory.wfFrom_mono (Nat.le_succ a) (ih (a + 1))
    · rename_i hv
      exact (Memory.wfFrom_cons_iff ..).2 ⟨le_refl a, hv, ih (a + 1)⟩

/-- The contents of a list of bytes are in canonical form. -/
theorem Memory.wf_ofBytesFrom (a : Nat) (vs : List Byte) : Memory.wf (Memory.ofBytesFrom a vs) = true :=
  Memory.wfFrom_mono (Nat.zero_le a) (Memory.wfFrom_ofBytesFrom a vs)

@[simp] theorem Memory.below_cons (size : Nat) (c : Host.Cell) (m : Memory) :
    Memory.below size (c :: m) = (decide (c.1 < size) && Memory.below size m) := rfl

/-- A write below the bound keeps every listed address below it. -/
theorem Memory.below_write {size a : Nat} (ha : a < size) (v : Byte) {m : Memory}
    (hm : Memory.below size m = true) : Memory.below size (Memory.write m a v) = true := by
  induction m with
  | nil => by_cases hv : v = 0x00#8 <;> simp [Memory.write, hv, Memory.below, ha]
  | cons c m ih =>
    simp only [Memory.below_cons, Bool.and_eq_true, decide_eq_true_eq] at hm
    simp only [Memory.write]
    split <;> split <;> simp_all [Memory.below_cons]
    split <;> simp_all [Memory.below_cons]

theorem Memory.below_ofBytesFrom (size a : Nat) (vs : List Byte) (h : a + vs.length ≤ size) :
    Memory.below size (Memory.ofBytesFrom a vs) = true := by
  induction vs generalizing a with
  | nil => rfl
  | cons v vs ih =>
    simp only [List.length_cons] at h
    have := ih (a + 1) (by omega)
    simp only [Memory.ofBytesFrom]
    split
    · exact this
    · simp only [Memory.below_cons, this, Bool.and_true, decide_eq_true_eq]; omega

/-- A read after a write to the same address gives the byte written, for contents in canonical form. -/
theorem Memory.read_write_same (m : Memory) (a : Nat) (v : Byte) (hm : Memory.wf m = true) :
    Memory.read (Memory.write m a v) a = v := by
  suffices ∀ lo, Memory.wfFrom lo m = true → Memory.read (Memory.write m a v) a = v from this 0 hm
  intro lo hlo
  induction m generalizing lo with
  | nil => by_cases hv : v = 0x00#8 <;> simp [Memory.write, hv, Memory.read]
  | cons c m ih =>
    obtain ⟨-, -, h3⟩ := (Memory.wfFrom_cons_iff lo c.1 c.2 m).1 hlo
    have hm' : Memory.wf m = true := Memory.wfFrom_mono (Nat.zero_le _) h3
    simp only [Memory.write]
    split
    · rename_i hlt
      have hne : c.1 ≠ a := by omega
      split
      · rename_i hv
        simp only [Memory.read, hne, if_false, hv]
        exact Memory.read_below (by omega) h3
      · simp [Memory.read]
    · split
      · rename_i heq
        split
        · rename_i hv
          rw [hv]; exact Memory.read_below (by omega) h3
        · simp [Memory.read]
      · rename_i _ hne
        simp only [Memory.read, Ne.symm hne, if_false]
        exact ih hm' (c.1 + 1) h3

/-- A write leaves every other byte. -/
theorem Memory.read_write_other (m : Memory) {a a' : Nat} (h : a' ≠ a) (v : Byte) :
    Memory.read (Memory.write m a v) a' = Memory.read m a' := by
  induction m with
  | nil => by_cases hv : v = 0x00#8 <;> simp [Memory.write, hv, Memory.read, h.symm]
  | cons c m ih =>
    simp only [Memory.write]
    split
    · split
      · rfl
      · simp [Memory.read, h.symm]
    · split
      · rename_i heq
        have : c.1 ≠ a' := by omega
        split <;> simp [Memory.read, h.symm, this]
      · simp only [Memory.read, ih]

/-- The memory of `State.resetWith` is in canonical form, and lists nothing. -/
theorem State.resetWith_mem_wf (cfg : Config) : Memory.wf (State.resetWith cfg).mem = true := rfl

/-- Placing an instruction keeps the canonical form. -/
theorem State.placeBytes_mem_wf (vs : List Byte) (s : State) (addr : Addr) (h : Memory.wf s.mem = true) :
    Memory.wf (s.placeBytes addr vs).mem = true := by
  induction vs generalizing s addr with
  | nil => exact h
  | cons v vs ih =>
    simp only [State.placeBytes]
    apply ih
    split
    · exact Memory.wf_write _ _ _ h
    · exact h

end Sys2Proof.Machine
end

