-- ==== Sys2Proof/Laws/State.lean ====
section
/-!
SUPPORT. One lemma per field and update of the state, so that no proof unfolds a record update.
-/

namespace Sys2Proof.Machine

variable (s : State)

/-! ## Flags -/

@[simp] theorem Flags.setZN_z (f : Flags) (v : Byte) : (f.setZN v).z = decide (v = 0#8) := rfl
@[simp] theorem Flags.setZN_n (f : Flags) (v : Byte) : (f.setZN v).n = v.getLsbD 7 := rfl
@[simp] theorem Flags.setZN_c (f : Flags) (v : Byte) : (f.setZN v).c = f.c := rfl
@[simp] theorem Flags.setZN_i (f : Flags) (v : Byte) : (f.setZN v).i = f.i := rfl
@[simp] theorem Flags.setZN_d (f : Flags) (v : Byte) : (f.setZN v).d = f.d := rfl
@[simp] theorem Flags.setZN_b (f : Flags) (v : Byte) : (f.setZN v).b = f.b := rfl
@[simp] theorem Flags.setZN_v (f : Flags) (v : Byte) : (f.setZN v).v = f.v := rfl

/-- Bit 7 of a byte is set exactly when its unsigned value is at least 128 (R17). -/
theorem getLsbD_seven_eq (v : Byte) : v.getLsbD 7 = decide (128 ≤ v.toNat) := by
  simpa [BitVec.msb_eq_getLsbD_last] using BitVec.msb_eq_decide v

theorem Flags.setZN_eq_afterLoad (f : Flags) (v : Byte) : f.setZN v = f.afterLoad v := by
  simp only [Flags.setZN, Flags.afterLoad, getLsbD_seven_eq]; rfl

@[simp] theorem Flags.get_set_same (f : Flags) (name : Flag) (bit : Bool) : (f.set name bit).get name = bit := by
  cases name <;> rfl

theorem Flags.get_set_other (f : Flags) {name other : Flag} (h : other ≠ name) (bit : Bool) :
    (f.set name bit).get other = f.get other := by
  cases name <;> cases other <;> first | rfl | exact absurd rfl h

/-! ## `writeReg` -/

@[simp] theorem State.writeReg_cfg (r : Reg8) (v : Byte) : (s.writeReg r v).cfg = s.cfg := by cases r <;> rfl
@[simp] theorem State.writeReg_pc (r : Reg8) (v : Byte) : (s.writeReg r v).pc = s.pc := by cases r <;> rfl
@[simp] theorem State.writeReg_flags (r : Reg8) (v : Byte) : (s.writeReg r v).flags = s.flags := by cases r <;> rfl
@[simp] theorem State.writeReg_mem (r : Reg8) (v : Byte) : (s.writeReg r v).mem = s.mem := by cases r <;> rfl
@[simp] theorem State.writeReg_lifecycle (r : Reg8) (v : Byte) : (s.writeReg r v).lifecycle = s.lifecycle := by cases r <;> rfl
@[simp] theorem State.writeReg_host (r : Reg8) (v : Byte) : (s.writeReg r v).host = s.host := by cases r <;> rfl
@[simp] theorem State.writeReg_answer (r : Reg8) (v : Byte) : (s.writeReg r v).answer = s.answer := by cases r <;> rfl

@[simp] theorem State.readReg_writeReg_same (r : Reg8) (v : Byte) : (s.writeReg r v).readReg r = v := by
  cases r <;> rfl

theorem State.readReg_writeReg_other {r r' : Reg8} (h : r' ≠ r) (v : Byte) :
    (s.writeReg r v).readReg r' = s.readReg r' := by
  cases r <;> cases r' <;> first | rfl | exact absurd rfl h

/-! ## `setZN` -/

@[simp] theorem State.setZN_cfg (v : Byte) : (s.setZN v).cfg = s.cfg := rfl
@[simp] theorem State.setZN_a (v : Byte) : (s.setZN v).a = s.a := rfl
@[simp] theorem State.setZN_x (v : Byte) : (s.setZN v).x = s.x := rfl
@[simp] theorem State.setZN_y (v : Byte) : (s.setZN v).y = s.y := rfl
@[simp] theorem State.setZN_sp (v : Byte) : (s.setZN v).sp = s.sp := rfl
@[simp] theorem State.setZN_pc (v : Byte) : (s.setZN v).pc = s.pc := rfl
@[simp] theorem State.setZN_flags (v : Byte) : (s.setZN v).flags = s.flags.setZN v := rfl
@[simp] theorem State.setZN_mem (v : Byte) : (s.setZN v).mem = s.mem := rfl
@[simp] theorem State.setZN_lifecycle (v : Byte) : (s.setZN v).lifecycle = s.lifecycle := rfl
@[simp] theorem State.setZN_host (v : Byte) : (s.setZN v).host = s.host := rfl
@[simp] theorem State.setZN_answer (v : Byte) : (s.setZN v).answer = s.answer := rfl

/-! ## `advancePC` -/

@[simp] theorem State.advancePC_cfg (n : Nat) : (s.advancePC n).cfg = s.cfg := rfl
@[simp] theorem State.advancePC_a (n : Nat) : (s.advancePC n).a = s.a := rfl
@[simp] theorem State.advancePC_x (n : Nat) : (s.advancePC n).x = s.x := rfl
@[simp] theorem State.advancePC_y (n : Nat) : (s.advancePC n).y = s.y := rfl
@[simp] theorem State.advancePC_sp (n : Nat) : (s.advancePC n).sp = s.sp := rfl
@[simp] theorem State.advancePC_pc (n : Nat) : (s.advancePC n).pc = s.pc + BitVec.ofNat 16 n := rfl
@[simp] theorem State.advancePC_flags (n : Nat) : (s.advancePC n).flags = s.flags := rfl
@[simp] theorem State.advancePC_mem (n : Nat) : (s.advancePC n).mem = s.mem := rfl
@[simp] theorem State.advancePC_lifecycle (n : Nat) : (s.advancePC n).lifecycle = s.lifecycle := rfl
@[simp] theorem State.advancePC_host (n : Nat) : (s.advancePC n).host = s.host := rfl
@[simp] theorem State.advancePC_answer (n : Nat) : (s.advancePC n).answer = s.answer := rfl

/-! ## `spend` -/

@[simp] theorem State.spend_cfg (n k : Nat) : (s.spend n k).cfg = s.cfg := rfl
@[simp] theorem State.spend_a (n k : Nat) : (s.spend n k).a = s.a := rfl
@[simp] theorem State.spend_x (n k : Nat) : (s.spend n k).x = s.x := rfl
@[simp] theorem State.spend_y (n k : Nat) : (s.spend n k).y = s.y := rfl
@[simp] theorem State.spend_sp (n k : Nat) : (s.spend n k).sp = s.sp := rfl
@[simp] theorem State.spend_pc (n k : Nat) : (s.spend n k).pc = s.pc := rfl
@[simp] theorem State.spend_flags (n k : Nat) : (s.spend n k).flags = s.flags := rfl
@[simp] theorem State.spend_mem (n k : Nat) : (s.spend n k).mem = s.mem := rfl
@[simp] theorem State.spend_lifecycle (n k : Nat) : (s.spend n k).lifecycle = s.lifecycle.spend n k := rfl
@[simp] theorem State.spend_host (n k : Nat) : (s.spend n k).host = s.host := rfl
@[simp] theorem State.spend_answer (n k : Nat) : (s.spend n k).answer = s.answer := rfl

/-! ## `afterLda` -/

@[simp] theorem State.afterLda_cfg (len cost : Nat) (v : Byte) : (s.afterLda len cost v).cfg = s.cfg := rfl
@[simp] theorem State.afterLda_a (len cost : Nat) (v : Byte) : (s.afterLda len cost v).a = v := rfl
@[simp] theorem State.afterLda_x (len cost : Nat) (v : Byte) : (s.afterLda len cost v).x = s.x := rfl
@[simp] theorem State.afterLda_y (len cost : Nat) (v : Byte) : (s.afterLda len cost v).y = s.y := rfl
@[simp] theorem State.afterLda_sp (len cost : Nat) (v : Byte) : (s.afterLda len cost v).sp = s.sp := rfl
@[simp] theorem State.afterLda_pc (len cost : Nat) (v : Byte) : (s.afterLda len cost v).pc = s.pc + BitVec.ofNat 16 len := rfl
@[simp] theorem State.afterLda_flags (len cost : Nat) (v : Byte) : (s.afterLda len cost v).flags = s.flags.afterLoad v := rfl
@[simp] theorem State.afterLda_mem (len cost : Nat) (v : Byte) : (s.afterLda len cost v).mem = s.mem := rfl
@[simp] theorem State.afterLda_lifecycle (len cost : Nat) (v : Byte) : (s.afterLda len cost v).lifecycle = s.lifecycle.afterCost cost := rfl
@[simp] theorem State.afterLda_host (len cost : Nat) (v : Byte) : (s.afterLda len cost v).host = s.host := rfl
@[simp] theorem State.afterLda_answer (len cost : Nat) (v : Byte) : (s.afterLda len cost v).answer = s.answer := rfl

/-! ## `afterLdx` -/

@[simp] theorem State.afterLdx_cfg (len cost : Nat) (v : Byte) : (s.afterLdx len cost v).cfg = s.cfg := rfl
@[simp] theorem State.afterLdx_a (len cost : Nat) (v : Byte) : (s.afterLdx len cost v).a = s.a := rfl
@[simp] theorem State.afterLdx_x (len cost : Nat) (v : Byte) : (s.afterLdx len cost v).x = v := rfl
@[simp] theorem State.afterLdx_y (len cost : Nat) (v : Byte) : (s.afterLdx len cost v).y = s.y := rfl
@[simp] theorem State.afterLdx_sp (len cost : Nat) (v : Byte) : (s.afterLdx len cost v).sp = s.sp := rfl
@[simp] theorem State.afterLdx_pc (len cost : Nat) (v : Byte) : (s.afterLdx len cost v).pc = s.pc + BitVec.ofNat 16 len := rfl
@[simp] theorem State.afterLdx_flags (len cost : Nat) (v : Byte) : (s.afterLdx len cost v).flags = s.flags.afterLoad v := rfl
@[simp] theorem State.afterLdx_mem (len cost : Nat) (v : Byte) : (s.afterLdx len cost v).mem = s.mem := rfl
@[simp] theorem State.afterLdx_lifecycle (len cost : Nat) (v : Byte) : (s.afterLdx len cost v).lifecycle = s.lifecycle.afterCost cost := rfl
@[simp] theorem State.afterLdx_host (len cost : Nat) (v : Byte) : (s.afterLdx len cost v).host = s.host := rfl
@[simp] theorem State.afterLdx_answer (len cost : Nat) (v : Byte) : (s.afterLdx len cost v).answer = s.answer := rfl

/-! ## `afterIdle` -/

@[simp] theorem State.afterIdle_cfg  : (s.afterIdle).cfg = s.cfg := rfl
@[simp] theorem State.afterIdle_a  : (s.afterIdle).a = s.a := rfl
@[simp] theorem State.afterIdle_x  : (s.afterIdle).x = s.x := rfl
@[simp] theorem State.afterIdle_y  : (s.afterIdle).y = s.y := rfl
@[simp] theorem State.afterIdle_sp  : (s.afterIdle).sp = s.sp := rfl
@[simp] theorem State.afterIdle_pc  : (s.afterIdle).pc = s.pc + 1#16 := rfl
@[simp] theorem State.afterIdle_flags  : (s.afterIdle).flags = s.flags := rfl
@[simp] theorem State.afterIdle_mem  : (s.afterIdle).mem = s.mem := rfl
@[simp] theorem State.afterIdle_lifecycle  : (s.afterIdle).lifecycle = s.lifecycle.afterIdle := rfl
@[simp] theorem State.afterIdle_host  : (s.afterIdle).host = s.host := rfl
@[simp] theorem State.afterIdle_answer  : (s.afterIdle).answer = s.answer := rfl

/-! ## `startRun` -/

@[simp] theorem State.startRun_cfg (b : Int) : (s.startRun b).cfg = s.cfg := rfl
@[simp] theorem State.startRun_a (b : Int) : (s.startRun b).a = s.a := rfl
@[simp] theorem State.startRun_x (b : Int) : (s.startRun b).x = s.x := rfl
@[simp] theorem State.startRun_y (b : Int) : (s.startRun b).y = s.y := rfl
@[simp] theorem State.startRun_sp (b : Int) : (s.startRun b).sp = s.sp := rfl
@[simp] theorem State.startRun_pc (b : Int) : (s.startRun b).pc = s.pc := rfl
@[simp] theorem State.startRun_flags (b : Int) : (s.startRun b).flags = s.flags := rfl
@[simp] theorem State.startRun_mem (b : Int) : (s.startRun b).mem = s.mem := rfl
@[simp] theorem State.startRun_lifecycle (b : Int) : (s.startRun b).lifecycle = .running b 0 := rfl
@[simp] theorem State.startRun_host (b : Int) : (s.startRun b).host = s.host := rfl
@[simp] theorem State.startRun_answer (b : Int) : (s.startRun b).answer = none := rfl

/-! ## `finishRun` -/

@[simp] theorem State.finishRun_cfg (c : Nat) : (s.finishRun c).cfg = s.cfg := rfl
@[simp] theorem State.finishRun_a (c : Nat) : (s.finishRun c).a = s.a := rfl
@[simp] theorem State.finishRun_x (c : Nat) : (s.finishRun c).x = s.x := rfl
@[simp] theorem State.finishRun_y (c : Nat) : (s.finishRun c).y = s.y := rfl
@[simp] theorem State.finishRun_sp (c : Nat) : (s.finishRun c).sp = s.sp := rfl
@[simp] theorem State.finishRun_pc (c : Nat) : (s.finishRun c).pc = s.pc := rfl
@[simp] theorem State.finishRun_flags (c : Nat) : (s.finishRun c).flags = s.flags := rfl
@[simp] theorem State.finishRun_mem (c : Nat) : (s.finishRun c).mem = s.mem := rfl
@[simp] theorem State.finishRun_lifecycle (c : Nat) : (s.finishRun c).lifecycle = .haltedByBudget := rfl
@[simp] theorem State.finishRun_host (c : Nat) : (s.finishRun c).host = s.host := rfl
@[simp] theorem State.finishRun_answer (c : Nat) : (s.finishRun c).answer = some (.total c) := rfl

/-! ## `destroy` -/

@[simp] theorem State.destroy_cfg  : (s.destroy).cfg = s.cfg := rfl
@[simp] theorem State.destroy_a  : (s.destroy).a = s.a := rfl
@[simp] theorem State.destroy_x  : (s.destroy).x = s.x := rfl
@[simp] theorem State.destroy_y  : (s.destroy).y = s.y := rfl
@[simp] theorem State.destroy_sp  : (s.destroy).sp = s.sp := rfl
@[simp] theorem State.destroy_pc  : (s.destroy).pc = s.pc := rfl
@[simp] theorem State.destroy_flags  : (s.destroy).flags = s.flags := rfl
@[simp] theorem State.destroy_mem  : (s.destroy).mem = s.mem := rfl
@[simp] theorem State.destroy_lifecycle  : (s.destroy).lifecycle = .destroyed := rfl
@[simp] theorem State.destroy_host  : (s.destroy).host = s.host := rfl
@[simp] theorem State.destroy_answer  : (s.destroy).answer = none := rfl

/-! ## The machine's updates are those of the rules -/

theorem Lifecycle.spend_same_eq (l : Lifecycle) (cost : Nat) : l.spend cost cost = l.afterCost cost := by
  cases l <;> rfl

theorem Lifecycle.spend_idle_eq (l : Lifecycle) : l.spend 1 0 = l.afterIdle := by
  cases l <;> rfl

theorem State.loaded_a_eq (len cost : Nat) (v : Byte) : s.loaded .a len cost v = s.afterLda len cost v := by
  simp only [State.loaded, State.afterLda, ← Flags.setZN_eq_afterLoad, ← Lifecycle.spend_same_eq]; rfl

theorem State.loaded_x_eq (len cost : Nat) (v : Byte) : s.loaded .x len cost v = s.afterLdx len cost v := by
  simp only [State.loaded, State.afterLdx, ← Flags.setZN_eq_afterLoad, ← Lifecycle.spend_same_eq]; rfl

theorem State.idled_eq : (s.advancePC 1).spend 1 0 = s.afterIdle := by
  simp only [State.afterIdle, ← Lifecycle.spend_idle_eq]; rfl

end Sys2Proof.Machine
end

