-- ==== Sys2Proof/Laws/Ops.lean ====
section
/-!
SUPPORT. What each shared operation can do, said once: memory access, the effective values, the load.
-/

namespace Sys2Proof.Machine

variable {s s' : State}

/-- `MemRead` answers the stored byte where the address exists, and otherwise names the address. -/
theorem State.memReadAt_cases (s : State) (addr : Nat) :
    (addr < s.cfg.memSize ∧ s.memReadAt addr = .ok (Memory.read s.mem addr)) ∨
      (s.cfg.memSize ≤ addr ∧ s.memReadAt addr = .error (.memOutOfRange addr)) := by
  by_cases h : addr < s.cfg.memSize
  · exact .inl ⟨h, if_pos h⟩
  · exact .inr ⟨Nat.le_of_not_lt h, if_neg h⟩

theorem State.memReadAt_of_lt {addr : Nat} (h : addr < s.cfg.memSize) :
    s.memReadAt addr = .ok (Memory.read s.mem addr) := if_pos h

theorem State.memReadAt_of_ge {addr : Nat} (h : s.cfg.memSize ≤ addr) :
    s.memReadAt addr = .error (.memOutOfRange addr) := if_neg (Nat.not_lt.2 h)

theorem State.memRead_of_lt {addr : Addr} (h : addr.toNat < s.cfg.memSize) :
    s.memRead addr = .ok (Memory.read s.mem addr.toNat) := if_pos h

theorem State.memRead_of_ge {addr : Addr} (h : s.cfg.memSize ≤ addr.toNat) :
    s.memRead addr = .error (.memOutOfRange addr.toNat) := if_neg (Nat.not_lt.2 h)

/-- A read is decided by the parameters and the contents. -/
theorem State.memRead_congr (hc : s'.cfg = s.cfg) (hm : s'.mem = s.mem) (addr : Addr) :
    s'.memRead addr = s.memRead addr := by
  simp only [State.memRead, State.memReadAt, hc, hm]

/-- `MemWrite` changes the one byte where the address exists, and otherwise names the address. -/
theorem State.memWriteAt_cases (s : State) (addr : Nat) (v : Byte) :
    (addr < s.cfg.memSize ∧ s.memWriteAt addr v = .ok { s with mem := Memory.write s.mem addr v }) ∨
      (s.cfg.memSize ≤ addr ∧ s.memWriteAt addr v = .error (.memOutOfRange addr)) := by
  by_cases h : addr < s.cfg.memSize
  · exact .inl ⟨h, if_pos h⟩
  · exact .inr ⟨Nat.le_of_not_lt h, if_neg h⟩

/-- A load answers a next state exactly when its effective value is a byte, and then `State.loaded`. -/
theorem load_next_iff {target : Reg8} {len cost : Nat} {value : Except Fault Byte} {t : State} :
    load target len cost value s = .next t ↔ ∃ v, value = .ok v ∧ t = s.loaded target len cost v := by
  cases value with
  | error f => simp [load]
  | ok v => simp [load, eq_comm]

/-- A load faults exactly when its effective value does. -/
theorem load_fault_iff {target : Reg8} {len cost : Nat} {value : Except Fault Byte} {f : Fault} :
    load target len cost value s = .fault f ↔ value = .error f := by
  cases value <;> simp [load]

/-- A load is never refused. -/
theorem load_not_refused {target : Reg8} {len cost : Nat} {value : Except Fault Byte} {r : Refusal} :
    load target len cost value s ≠ .refused r := by
  cases value <;> simp [load]

/-! ## Addresses as numbers -/

@[simp] theorem zext16_toNat (b : Byte) : (zext16 b).toNat = b.toNat := by
  have := b.isLt
  simp only [zext16, BitVec.toNat_setWidth]; omega

theorem eaZp_toNat (b : Byte) : (eaZp b).toNat = b.toNat := zext16_toNat b

theorem eaZpx_toNat (b : Byte) (s : State) : (eaZpx b s).toNat = (b.toNat + s.x.toNat) % 256 := by
  simp [eaZpx, BitVec.toNat_add]

theorem eaZpy_toNat (b : Byte) (s : State) : (eaZpy b s).toNat = (b.toNat + s.y.toNat) % 256 := by
  simp [eaZpy, BitVec.toNat_add]

theorem eaAbx_toNat (w : Addr) (s : State) : (eaAbx w s).toNat = (w.toNat + s.x.toNat) % 65536 := by
  simp [eaAbx, BitVec.toNat_add]

theorem eaAby_toNat (w : Addr) (s : State) : (eaAby w s).toNat = (w.toNat + s.y.toNat) % 65536 := by
  simp [eaAby, BitVec.toNat_add]

theorem indySum_toNat (cfg : Config) (p y : Byte) :
    (indySum cfg p y).toNat =
      if cfg.indyWrap8 then (p.toNat + y.toNat) % 256 else p.toNat + y.toNat := by
  have := p.isLt
  have := y.isLt
  unfold indySum
  split
  · simp [BitVec.toNat_add]
  · simp only [BitVec.toNat_add, zext16_toNat]; omega

/-- Reading at an address and reading at its number are the same, with the fault named by the number. -/
theorem State.memRead_eq_memReadAt (s : State) {addr : Addr} {n : Nat} (h : addr.toNat = n) :
    s.memRead addr = s.memReadAt n := by
  simp only [State.memRead, h]

end Sys2Proof.Machine
end

