-- ==== Sys2Proof/Laws/Exec.lean ====
section
/-!
SUPPORT. The model's effective values are those of the rules, and what an instruction can do, said once.
-/

namespace Sys2Proof.Machine

/-- The machine's answer of a read, as the rules' form of it. -/
def liftValue : Except Nat Byte → Except Fault Byte
  | .ok v => .ok v
  | .error addr => .error (.memOutOfRange addr)

@[simp] theorem liftValue_ok (v : Byte) : liftValue (.ok v) = .ok v := rfl
@[simp] theorem liftValue_error (a : Nat) : liftValue (.error a) = .error (.memOutOfRange a) := rfl

theorem liftValue_ite (s : State) (a : Nat) :
    liftValue (if a < s.cfg.memSize then .ok (Memory.read s.mem a) else .error a) = s.memReadAt a := by
  unfold State.memReadAt; split <;> rfl

theorem valueZp_eq (b : Byte) (s : State) : valueZp b s = liftValue (effectiveValue (.ldaZp b) s) := by
  simp only [valueZp, s.memRead_eq_memReadAt (eaZp_toNat b), effectiveValue, liftValue_ite]

theorem valueZpx_eq (b : Byte) (s : State) : valueZpx b s = liftValue (effectiveValue (.ldaZpx b) s) := by
  simp only [valueZpx, s.memRead_eq_memReadAt (eaZpx_toNat b s), effectiveValue, liftValue_ite]

theorem valueZpy_eq (b : Byte) (s : State) : valueZpy b s = liftValue (effectiveValue (.ldxZpy b) s) := by
  simp only [valueZpy, s.memRead_eq_memReadAt (eaZpy_toNat b s), effectiveValue, liftValue_ite]

theorem valueAbs_eq (w : Addr) (s : State) : valueAbs w s = liftValue (effectiveValue (.ldaAbs w) s) := by
  simp only [valueAbs, eaAbs, s.memRead_eq_memReadAt rfl, effectiveValue, liftValue_ite]

theorem valueAbx_eq (w : Addr) (s : State) : valueAbx w s = liftValue (effectiveValue (.ldaAbx w) s) := by
  simp only [valueAbx, s.memRead_eq_memReadAt (eaAbx_toNat w s), effectiveValue, liftValue_ite]

theorem valueAby_eq (w : Addr) (s : State) : valueAby w s = liftValue (effectiveValue (.ldaAby w) s) := by
  simp only [valueAby, s.memRead_eq_memReadAt (eaAby_toNat w s), effectiveValue, liftValue_ite]

theorem valueIzx_eq (b : Byte) (s : State) : valueIzx b s = liftValue (effectiveValue (.ldaIzx b) s) := by
  have hp : (zext16 (b + s.x)).toNat = (b.toNat + s.x.toNat) % 256 := eaZpx_toNat b s
  simp only [valueIzx, eaIzx, s.memRead_eq_memReadAt hp, effectiveValue]
  rcases s.memReadAt_cases ((b.toNat + s.x.toNat) % 256) with ⟨h, h'⟩ | ⟨h, h'⟩
  · simp only [h', Except.map, Except.bind, h, if_true, liftValue_ite, s.memRead_eq_memReadAt (zext16_toNat _)]
  · simp only [h', Except.map, Except.bind, Nat.not_lt.2 h, if_false, liftValue_error]

theorem valueIzy_eq (b : Byte) (s : State) : valueIzy b s = liftValue (effectiveValue (.ldaIzy b) s) := by
  simp only [valueIzy, eaIzy, s.memRead_eq_memReadAt (zext16_toNat b), effectiveValue]
  rcases s.memReadAt_cases b.toNat with ⟨h, h'⟩ | ⟨h, h'⟩
  · simp only [h', Except.map, Except.bind, h, if_true, liftValue_ite,
      s.memRead_eq_memReadAt (indySum_toNat s.cfg _ s.y)]
  · simp only [h', Except.map, Except.bind, Nat.not_lt.2 h, if_false, liftValue_error]

/-- Every LDA is one load into `A` of its effective value, with the length and the cost of the tables. -/
theorem exec_lda_eq {i : Instr} (h : isLda i = true) (s : State) :
    exec i s = load .a i.length (budgetCost i) (liftValue (effectiveValue i s)) s := by
  cases i <;> simp only [isLda, Bool.false_eq_true] at h <;>
    simp only [exec, execLdaImm, execLdaZp, execLdaZpx, execLdaAbs, execLdaAbx, execLdaAby, execLdaIzx, execLdaIzy,
      valueZp_eq, valueZpx_eq, valueAbs_eq, valueAbx_eq, valueAby_eq, valueIzx_eq, valueIzy_eq] <;> rfl

/-- Every LDX is one load into `X` of its effective value, with the length and the cost of the tables. -/
theorem exec_ldx_eq {i : Instr} (h : isLdx i = true) (s : State) :
    exec i s = load .x i.length (budgetCost i) (liftValue (effectiveValue i s)) s := by
  cases i <;> simp only [isLdx, Bool.false_eq_true] at h <;>
    simp only [exec, execLdxImm, execLdxZp, execLdxZpy, execLdxAbs, execLdxAby,
      valueZp_eq, valueZpy_eq, valueAbs_eq, valueAby_eq] <;> rfl

/-- An address that a load names does not exist and has at most 16 bits. -/
theorem effectiveValue_error {i : Instr} {s : State} {a : Nat} (hi : isLda i = true ∨ isLdx i = true)
    (h : effectiveValue i s = .error a) : s.cfg.memSize ≤ a ∧ a < 65536 := by
  have key : ∀ n, n < 65536 → (if n < s.cfg.memSize then .ok (Memory.read s.mem n) else .error n : Except Nat Byte)
      = .error a → s.cfg.memSize ≤ a ∧ a < 65536 := by
    intro n hn
    split
    · simp
    · simp only [Except.error.injEq]; omega
  have hx := s.x.isLt
  have hy := s.y.isLt
  cases i with
  | ldaImm b => simp [effectiveValue] at h
  | ldxImm b => simp [effectiveValue] at h
  | unassigned op => simp [isLda, isLdx] at hi
  | ldaZp b => exact key _ (by have := b.isLt; omega) h
  | ldxZp b => exact key _ (by have := b.isLt; omega) h
  | ldaZpx b => exact key _ (by omega) h
  | ldxZpy b => exact key _ (by omega) h
  | ldaAbs w => exact key _ w.isLt h
  | ldxAbs w => exact key _ w.isLt h
  | ldaAbx w => exact key _ (by omega) h
  | ldaAby w => exact key _ (by omega) h
  | ldxAby w => exact key _ (by omega) h
  | ldaIzx b =>
    simp only [effectiveValue] at h
    by_cases hp : (b.toNat + s.x.toNat) % 256 < s.cfg.memSize
    · simp only [hp, if_true] at h
      exact key _ (by have := (Memory.read s.mem ((b.toNat + s.x.toNat) % 256)).isLt; omega) h
    · simp only [hp, if_false, Except.error.injEq] at h; omega
  | ldaIzy b =>
    have hb := b.isLt
    simp only [effectiveValue] at h
    by_cases hp : b.toNat < s.cfg.memSize
    · simp only [hp, if_true] at h
      exact key _ (by have := (Memory.read s.mem b.toNat).isLt; split <;> omega) h
    · simp only [hp, if_false, Except.error.injEq] at h; omega

/-- Everything an instruction that completes can have done: an LDA, an LDX or an idle cycle (R90, R99, R106). -/
theorem exec_next_cases {i : Instr} {s t : State} (h : exec i s = .next t) :
    (isLda i = true ∧ ∃ v, effectiveValue i s = .ok v ∧ t = s.afterLda i.length (budgetCost i) v) ∨
    (isLdx i = true ∧ ∃ v, effectiveValue i s = .ok v ∧ t = s.afterLdx i.length (budgetCost i) v) ∨
    (∃ op, i = .unassigned op ∧ s.cfg.strictOpcodes = false ∧ t = s.afterIdle) := by
  by_cases hA : isLda i = true
  · rw [exec_lda_eq hA, load_next_iff] at h
    obtain ⟨v, hv, rfl⟩ := h
    refine .inl ⟨hA, v, ?_, s.loaded_a_eq ..⟩
    cases hE : effectiveValue i s <;> simp_all
  · by_cases hX : isLdx i = true
    · rw [exec_ldx_eq hX, load_next_iff] at h
      obtain ⟨v, hv, rfl⟩ := h
      refine .inr (.inl ⟨hX, v, ?_, s.loaded_x_eq ..⟩)
      cases hE : effectiveValue i s <;> simp_all
    · cases i with
      | unassigned op =>
        simp only [exec, execUnassigned, State.idled_eq] at h
        split at h
        · simp at h
        · rename_i hs
          exact .inr (.inr ⟨op, rfl, by simpa using hs, by simpa [eq_comm] using h⟩)
      | _ => simp [isLda, isLdx] at hA hX

end Sys2Proof.Machine
end

