-- ==== Sys2Proof/Laws/Fetch.lean ====
section
/-!
SUPPORT. What the fetch primitives do (R60, R61), and how they agree with the decoder.
-/

namespace Sys2Proof.Machine

variable {s : State}

theorem State.fetchByte_of_lt (h : s.pc.toNat < s.cfg.memSize) :
    s.fetchByte = .ok (Memory.read s.mem s.pc.toNat, s.advancePC 1) := by
  simp only [State.fetchByte, State.memRead_of_lt h]; rfl

theorem State.fetchByte_of_ge (h : s.cfg.memSize ≤ s.pc.toNat) :
    s.fetchByte = .error (.memOutOfRange s.pc.toNat) := by
  simp only [State.fetchByte, State.memRead_of_ge h]; rfl

theorem State.fetchWord_of_lt (h : s.pc.toNat < s.cfg.memSize) (h' : (s.pc + 1#16).toNat < s.cfg.memSize) :
    s.fetchWord = .ok (wordOfBytes (Memory.read s.mem s.pc.toNat) (Memory.read s.mem (s.pc + 1#16).toNat),
      s.advancePC 2) := by
  simp only [State.fetchWord, State.memRead_of_lt h, State.memRead_of_lt h']; rfl

/-- The low byte is read first, so it is named first when it does not exist (R42). -/
theorem State.fetchWord_of_ge_low (h : s.cfg.memSize ≤ s.pc.toNat) :
    s.fetchWord = .error (.memOutOfRange s.pc.toNat) := by
  simp only [State.fetchWord, State.memRead_of_ge h]; rfl

theorem State.fetchWord_of_ge_high (h : s.pc.toNat < s.cfg.memSize) (h' : s.cfg.memSize ≤ (s.pc + 1#16).toNat) :
    s.fetchWord = .error (.memOutOfRange (s.pc + 1#16).toNat) := by
  simp only [State.fetchWord, State.memRead_of_lt h, State.memRead_of_ge h']; rfl

@[simp] theorem State.advancePC_advancePC (s : State) (n k : Nat) :
    (s.advancePC n).advancePC k = s.advancePC (n + k) := by
  simp only [State.advancePC, BitVec.ofNat_add, BitVec.add_assoc]

theorem BytesAt_cons_iff (addr : Addr) (v : Byte) (vs : List Byte) :
    s.BytesAt addr (v :: vs) ↔
      addr.toNat < s.cfg.memSize ∧ Memory.read s.mem addr.toNat = v ∧ s.BytesAt (addr + 1#16) vs := Iff.rfl

/-- Where the bytes at `PC` decode, fetching reads that instruction and leaves `PC` past its bytes. -/
theorem State.fetchInstr_of_decode {bs rest : List Byte} {i : Instr} (hb : s.BytesAt s.pc bs)
    (hd : decode bs = .ok (i, rest)) : ∃ n, s.fetchInstr = .ok (i, s.advancePC n) := by
  rcases decode_ok_cases hd with ⟨op, rfl, hs, rfl⟩ | ⟨op, make, b, rfl, hs, rfl⟩ | ⟨op, make, lo, hi, rfl, hs, rfl⟩
  · obtain ⟨h0, rfl, -⟩ := hb
    refine ⟨1, ?_⟩
    simp only [State.fetchInstr, State.fetchByte_of_lt h0, Except.bind, hs]
  · obtain ⟨h0, rfl, h1, rfl, -⟩ := hb
    refine ⟨2, ?_⟩
    have h1' : (s.advancePC 1).pc.toNat < (s.advancePC 1).cfg.memSize := h1
    simp only [State.fetchInstr, State.fetchByte_of_lt h0, Except.bind, hs, State.fetchByte_of_lt h1', Except.map,
      State.advancePC_advancePC]
    rfl
  · obtain ⟨h0, rfl, h1, rfl, h2, rfl, -⟩ := hb
    refine ⟨3, ?_⟩
    have h1' : (s.advancePC 1).pc.toNat < (s.advancePC 1).cfg.memSize := h1
    have h2' : ((s.advancePC 1).pc + 1#16).toNat < (s.advancePC 1).cfg.memSize := h2
    simp only [State.fetchInstr, State.fetchByte_of_lt h0, Except.bind, hs, State.fetchWord_of_lt h1' h2', Except.map,
      State.advancePC_advancePC]
    rfl

/-- What fetching can answer: an instruction that the bytes at `PC` decode to. -/
theorem State.fetchInstr_ok_cases {i : Instr} {s' : State} (h : s.fetchInstr = .ok (i, s')) :
    ∃ bs, s.BytesAt s.pc bs ∧ decode bs = .ok (i, []) ∧ s' = s.advancePC bs.length := by
  by_cases h0 : s.pc.toNat < s.cfg.memSize
  · simp only [State.fetchInstr, State.fetchByte_of_lt h0, Except.bind] at h
    generalize hop : Memory.read s.mem s.pc.toNat = op at h
    cases hs : shapeOf op with
    | none =>
      simp only [hs, Except.ok.injEq, Prod.mk.injEq] at h
      obtain ⟨rfl, rfl⟩ := h
      exact ⟨[op], ⟨h0, hop, trivial⟩, decode_unassigned hs [], rfl⟩
    | some sh =>
      cases sh with
      | opB make =>
        simp only [hs] at h
        by_cases h1 : (s.advancePC 1).pc.toNat < (s.advancePC 1).cfg.memSize
        · simp only [State.fetchByte_of_lt h1, Except.map, Except.ok.injEq, Prod.mk.injEq] at h
          obtain ⟨rfl, rfl⟩ := h
          exact ⟨[op, _], ⟨h0, hop, h1, rfl, trivial⟩, decode_opB hs _ [], by simp⟩
        · simp [State.fetchByte_of_ge (Nat.le_of_not_lt h1), Except.map] at h
      | opW make =>
        simp only [hs] at h
        by_cases h1 : (s.advancePC 1).pc.toNat < (s.advancePC 1).cfg.memSize
        · by_cases h2 : ((s.advancePC 1).pc + 1#16).toNat < (s.advancePC 1).cfg.memSize
          · simp only [State.fetchWord_of_lt h1 h2, Except.map, Except.ok.injEq, Prod.mk.injEq] at h
            obtain ⟨rfl, rfl⟩ := h
            exact ⟨[op, _, _], ⟨h0, hop, h1, rfl, h2, rfl, trivial⟩, decode_opW hs _ _ [], by simp⟩
          · simp [State.fetchWord_of_ge_high h1 (Nat.le_of_not_lt h2), Except.map] at h
        · simp [State.fetchWord_of_ge_low (Nat.le_of_not_lt h1), Except.map] at h
  · simp [State.fetchInstr, State.fetchByte_of_ge (Nat.le_of_not_lt h0), Except.bind] at h

/-- Fetching stops only at an address that does not exist, and names it (R35, D4). -/
theorem State.fetchInstr_error_cases {f : Fault} (h : s.fetchInstr = .error f) :
    ∃ addr, f = .memOutOfRange addr ∧ s.cfg.memSize ≤ addr := by
  by_cases h0 : s.pc.toNat < s.cfg.memSize
  · simp only [State.fetchInstr, State.fetchByte_of_lt h0, Except.bind] at h
    split at h
    · simp at h
    · by_cases h1 : (s.advancePC 1).pc.toNat < (s.advancePC 1).cfg.memSize
      · simp [State.fetchByte_of_lt h1, Except.map] at h
      · simp only [State.fetchByte_of_ge (Nat.le_of_not_lt h1), Except.map, Except.error.injEq] at h
        exact ⟨_, h.symm, Nat.le_of_not_lt h1⟩
    · by_cases h1 : (s.advancePC 1).pc.toNat < (s.advancePC 1).cfg.memSize
      · by_cases h2 : ((s.advancePC 1).pc + 1#16).toNat < (s.advancePC 1).cfg.memSize
        · simp [State.fetchWord_of_lt h1 h2, Except.map] at h
        · simp only [State.fetchWord_of_ge_high h1 (Nat.le_of_not_lt h2), Except.map, Except.error.injEq] at h
          exact ⟨_, h.symm, Nat.le_of_not_lt h2⟩
      · simp only [State.fetchWord_of_ge_low (Nat.le_of_not_lt h1), Except.map, Except.error.injEq] at h
        exact ⟨_, h.symm, Nat.le_of_not_lt h1⟩
  · simp only [State.fetchInstr, State.fetchByte_of_ge (Nat.le_of_not_lt h0), Except.bind, Except.error.injEq] at h
    exact ⟨_, h.symm, Nat.le_of_not_lt h0⟩

end Sys2Proof.Machine
end

