-- ==== Sys2Proof/Laws/PerInstr.lean ====
section
/-!
SUPPORT. Statements about every instruction as data, one lemma per constructor.
-/

/-- The bytes of a well-formed instruction are as many as its length, and its opcode byte alone tells that length (R51). -/
def Sys2Proof.Laws.OpcodeTellsLength.Statement (i : Sys2Proof.Instr) : Prop :=
  i.wf = true →
    (Sys2Proof.encode i).length = i.length ∧
      Sys2Proof.opcodeLength ((Sys2Proof.encode i).headD 0x00#8) = i.length

namespace Sys2Proof.Laws.OpcodeTellsLength

theorem ldaImm (b : Byte) : Statement (.ldaImm b) := fun _ => ⟨rfl, rfl⟩
theorem ldaZp (b : Byte) : Statement (.ldaZp b) := fun _ => ⟨rfl, rfl⟩
theorem ldaZpx (b : Byte) : Statement (.ldaZpx b) := fun _ => ⟨rfl, rfl⟩
theorem ldaAbs (w : Addr) : Statement (.ldaAbs w) := fun _ => ⟨rfl, rfl⟩
theorem ldaAbx (w : Addr) : Statement (.ldaAbx w) := fun _ => ⟨rfl, rfl⟩
theorem ldaAby (w : Addr) : Statement (.ldaAby w) := fun _ => ⟨rfl, rfl⟩
theorem ldaIzx (b : Byte) : Statement (.ldaIzx b) := fun _ => ⟨rfl, rfl⟩
theorem ldaIzy (b : Byte) : Statement (.ldaIzy b) := fun _ => ⟨rfl, rfl⟩
theorem ldxImm (b : Byte) : Statement (.ldxImm b) := fun _ => ⟨rfl, rfl⟩
theorem ldxZp (b : Byte) : Statement (.ldxZp b) := fun _ => ⟨rfl, rfl⟩
theorem ldxZpy (b : Byte) : Statement (.ldxZpy b) := fun _ => ⟨rfl, rfl⟩
theorem ldxAbs (w : Addr) : Statement (.ldxAbs w) := fun _ => ⟨rfl, rfl⟩
theorem ldxAby (w : Addr) : Statement (.ldxAby w) := fun _ => ⟨rfl, rfl⟩

theorem unassigned (op : Byte) : Statement (.unassigned op) := fun h =>
  ⟨rfl, by
    have hs : shapeOf op = none := shapeOf_of_isUnassigned h
    simp [encode, opcodeLength, hs, Instr.length]⟩

end Sys2Proof.Laws.OpcodeTellsLength
end

