-- ==== Sys2Proof/Laws/Step.lean ====
section
/-!
SUPPORT. What a step can do, said once: a turn of the run loop, the end of a run, or a command of the host.
-/

namespace Sys2Proof.Machine

variable {s t : State}

theorem step_of_running {r : Int} {c : Nat} (h : s.lifecycle = .running r c) :
    step s = if 0 < r then s.runInstr else .next (s.finishRun c) := by
  simp only [step, h]

theorem step_of_not_running (h : ∀ r c, s.lifecycle ≠ .running r c) : step s = s.hostStep := by
  unfold step
  cases hl : s.lifecycle with
  | running r c => exact absurd hl (h r c)
  | _ => rfl

/-- An instruction step that completes ran an instruction that the bytes at `PC` decode to. -/
theorem runInstr_next_cases (h : s.runInstr = .next t) :
    ∃ bs i, s.BytesAt s.pc bs ∧ decode bs = .ok (i, []) ∧ exec i s = .next t := by
  unfold State.runInstr at h
  split at h
  · simp at h
  · rename_i i s' hf
    obtain ⟨bs, hb, hd, -⟩ := State.fetchInstr_ok_cases hf
    exact ⟨bs, i, hb, hd, h⟩

/-- Everything a command that completes can have done (R125, R127, R128, R130 to R132). -/
theorem perform_next_cases {op : HostOp} (h : State.perform op s = .next t) :
    hostRefusal s.lifecycle op = none ∧
    ((op = .reset ∧ t = s.hostReset) ∨
     (∃ b, op = .run b ∧ t = s.startRun b) ∨
     (op = .destroy ∧ t = s.destroy) ∨
     (∃ addr, op = .readMem addr ∧ addr < s.cfg.memSize ∧
       t = { s with answer := some (.byte (Memory.read s.mem addr)) }) ∨
     (∃ addr v, op = .writeMem addr v ∧ addr < s.cfg.memSize ∧
       t = { s with mem := Memory.write s.mem addr v, answer := none }) ∨
     (∃ r, op = .readReg r ∧ t = { s with answer := some (.byte (s.readReg r)) }) ∨
     (∃ r v, op = .writeReg r v ∧ t = { s.writeReg r v with answer := none }) ∨
     (op = .readPC ∧ t = { s with answer := some (.word s.pc) }) ∨
     (∃ v, op = .writePC v ∧ t = { s with pc := v, answer := none }) ∨
     (∃ f, op = .readFlag f ∧ t = { s with answer := some (.bit (s.flags.get f)) }) ∨
     (∃ f v, op = .writeFlag f v ∧ t = { s with flags := s.flags.set f v, answer := none })) := by
  unfold State.perform at h
  split at h
  · simp at h
  · rename_i hr
    refine ⟨hr, ?_⟩
    cases op with
    | readMem addr =>
      rcases s.memReadAt_cases addr with ⟨hlt, hv⟩ | ⟨-, hv⟩ <;> simp [State.performAdmitted, hv] at h
      simp [hlt, h]
    | writeMem addr v =>
      rcases s.memWriteAt_cases addr v with ⟨hlt, hv⟩ | ⟨-, hv⟩ <;> simp [State.performAdmitted, hv] at h
      simp [hlt, h]
    | writeFlag f v =>
      simp only [State.performAdmitted, Host.Outcome.next.injEq] at h
      iterate 10 right
      exact ⟨f, v, rfl, h.symm⟩
    | _ => simp [State.performAdmitted] at h; simp [h]

/-- Everything a step that completes can have done. -/
theorem step_next_cases (h : step s = .next t) :
    (∃ r c bs i, s.lifecycle = .running r c ∧ 0 < r ∧ s.BytesAt s.pc bs ∧ decode bs = .ok (i, []) ∧
      exec i s = .next t) ∨
    (∃ r c, s.lifecycle = .running r c ∧ r ≤ 0 ∧ t = s.finishRun c) ∨
    ((∀ r c, s.lifecycle ≠ .running r c) ∧
      ((s.host = [] ∧ t = s) ∨
        ∃ op rest, s.host = op :: rest ∧ State.perform op { s with host := rest } = .next t)) := by
  by_cases hrun : ∃ r c, s.lifecycle = .running r c
  · obtain ⟨r, c, hl⟩ := hrun
    rw [step_of_running hl] at h
    split at h
    · rename_i hr
      obtain ⟨bs, i, hb, hd, he⟩ := runInstr_next_cases h
      exact .inl ⟨r, c, bs, i, hl, hr, hb, hd, he⟩
    · rename_i hr
      exact .inr (.inl ⟨r, c, hl, by omega, by simpa [eq_comm] using h⟩)
  · have hn : ∀ r c, s.lifecycle ≠ .running r c := fun r c hl => hrun ⟨r, c, hl⟩
    rw [step_of_not_running hn] at h
    refine .inr (.inr ⟨hn, ?_⟩)
    unfold State.hostStep at h
    split at h
    · rename_i hh
      exact .inl ⟨hh, by simpa [eq_comm] using h⟩
    · rename_i op rest hh
      exact .inr ⟨op, rest, hh, h⟩

end Sys2Proof.Machine
end

