-- ==== Sys2Proof/Laws/Run.lean ====
section
/-!
SUPPORT. The instructions that several steps execute, and what they cost the budget of a run (R64, R65, R67).
-/

namespace Sys2Proof.Machine

variable {s t : State}

@[simp] theorem handlerCycles_nil : handlerCycles [] = 0 := rfl

@[simp] theorem handlerCycles_cons (i : Instr) (is : List Instr) :
    handlerCycles (i :: is) = countedCost i + handlerCycles is := by simp [handlerCycles]

@[simp] theorem idleCycles_nil : idleCycles [] = 0 := rfl

theorem idleCycles_cons (i : Instr) (is : List Instr) :
    idleCycles (i :: is) = idleCycles is + if isIdle i then 1 else 0 := by simp [idleCycles, List.countP_cons]

/-- What an instruction takes from the budget is what it counts, and one for an idle cycle (R65, R67). -/
theorem budgetCost_eq (i : Instr) : budgetCost i = countedCost i + if isIdle i then 1 else 0 := by cases i <;> rfl

/-- An instruction takes one to six cycles from the budget (R69, R138). -/
theorem budgetCost_bounds (i : Instr) : 1 ≤ budgetCost i ∧ budgetCost i ≤ 6 := by cases i <;> simp [budgetCost]

/-- Where a run has a cycle left and the bytes at `PC` decode, that is the instruction about to be executed. -/
theorem State.instrAtPC_of_decode {r : Int} {c : Nat} {bs rest : List Byte} {i : Instr}
    (hl : s.lifecycle = .running r c) (hr : 0 < r) (hb : s.BytesAt s.pc bs) (hd : decode bs = .ok (i, rest)) :
    s.instrAtPC = some i := by
  have hadd : s.pc + 1#16 + 1#16 = s.pc + 2#16 := by rw [BitVec.add_assoc]; rfl
  rcases decode_ok_cases hd with ⟨op, rfl, hs, rfl⟩ | ⟨op, make, b, rfl, hs, rfl⟩ | ⟨op, make, lo, hi, rfl, hs, rfl⟩
  · obtain ⟨-, rfl, -⟩ := hb
    simp [State.instrAtPC, hl, hr, decode_unassigned hs]
  · obtain ⟨-, rfl, -, rfl, -⟩ := hb
    simp [State.instrAtPC, hl, hr, decode_opB hs]
  · obtain ⟨-, rfl, -, rfl, -, rfl, -⟩ := hb
    simp [State.instrAtPC, hl, hr, decode_opW hs, hadd]

/-- Where the loop condition fails nothing is executed (R64). -/
theorem State.instrAtPC_of_le {r : Int} {c : Nat} (hl : s.lifecycle = .running r c) (hr : r ≤ 0) :
    s.instrAtPC = none := by
  simp [State.instrAtPC, hl, Int.not_lt.2 hr]

/-- Outside a run nothing is executed. -/
theorem State.instrAtPC_of_not_running (h : ∀ r c, s.lifecycle ≠ .running r c) : s.instrAtPC = none := by
  unfold State.instrAtPC
  cases hl : s.lifecycle with
  | running r c => exact absurd hl (h r c)
  | _ => rfl

@[simp] theorem executed_zero (s : State) : executed 0 s = [] := rfl

theorem executed_succ (h : step s = .next t) (k : Nat) : executed (k + 1) s = s.instrAtPC.toList ++ executed k t := by
  simp only [executed, h]

/-- A step that runs an instruction adds it to what was executed. -/
theorem executed_succ_of_decode {r : Int} {c : Nat} {bs rest : List Byte} {i : Instr}
    (hl : s.lifecycle = .running r c) (hr : 0 < r) (hb : s.BytesAt s.pc bs) (hd : decode bs = .ok (i, rest))
    (h : step s = .next t) (k : Nat) : executed (k + 1) s = i :: executed k t := by
  simp [executed_succ h, State.instrAtPC_of_decode hl hr hb hd]

end Sys2Proof.Machine
end

