-- ==== Sys2Proof/Tests/Slice0.lean ====
section
/-!
SUPPORT. Tests whose expected results come from 95_test_vectors.md (named in each comment), words written out bit by bit from
30_encoding.md, the smoke test of `Instr.wf`, and for each statement with hypotheses a witness that meets them.
-/

namespace Sys2Proof.Tests

open Sys2Proof Sys2Proof.Machine

/-! ## Helpers -/

/-- The next state of an outcome, if it is one. -/
def nextState : Host.Outcome State Fault Refusal → Option State
  | .next s => some s
  | _ => none

/-- The fault of an outcome, if it is one. -/
def faultOf : Host.Outcome State Fault Refusal → Option Fault
  | .fault f => some f
  | _ => none

/-- The refusal of an outcome, if it is one. -/
def refusalOf : Host.Outcome State Fault Refusal → Option Refusal
  | .refused r => some r
  | _ => none

/-- A unit of `size` bytes after reset, with a program at address 0 and further bytes written by the host, in a run that has
one cycle left: the start of every single-step vector. -/
def start (size : Nat) (program : List Byte) (cells : List Host.Cell) : State :=
  { State.resetWith { Config.default with memSize := size } with
    mem := cells.foldl (fun m c => Memory.write m c.1 c.2) (Memory.ofBytesFrom 0 program)
    lifecycle := .running 1 0 }

/-- What a load leaves, as the vectors list it: `A`, `X`, `Z`, `N`, `PC`, and `completed` after a run of budget 1. -/
def outcome (o : Host.Outcome State Fault Refusal) : Option (Byte × Byte × Bool × Bool × Addr × Lifecycle) :=
  (nextState o).map fun t => (t.a, t.x, t.flags.z, t.flags.n, t.pc, t.lifecycle)

/-! ## Well-formedness: an ill-formed term for the one check, and a well-formed one -/

theorem test_wf_refuses_assigned_byte : (Instr.unassigned 0xA9#8).wf = false := by decide
theorem test_wf_refuses_every_assigned_byte :
    [0xA1#8, 0xA2#8, 0xA5#8, 0xA6#8, 0xA9#8, 0xAD#8, 0xAE#8, 0xB1#8, 0xB5#8, 0xB6#8, 0xB9#8, 0xBD#8, 0xBE#8].all
      (fun op => (Instr.unassigned op).wf == false) = true := by decide
theorem test_wf_accepts_unassigned_bytes :
    [0x00#8, 0xA0#8, 0xA3#8, 0xAC#8, 0xB0#8, 0xB4#8, 0xBC#8, 0xBF#8, 0xEA#8, 0xFF#8].all
      (fun op => (Instr.unassigned op).wf) = true := by decide

/-! ## Decoding: words written out bit by bit from the Binary column of R52 and the formats of R49 -/

theorem test_decode_ldaImm : decode [0b10101001#8, 0b01101001#8] = .ok (.ldaImm 0x69#8, []) := by rfl
theorem test_decode_ldaZp : decode [0b10100101#8, 0b01001000#8] = .ok (.ldaZp 0x48#8, []) := by rfl
theorem test_decode_ldaZpx : decode [0b10110101#8, 0b01100000#8] = .ok (.ldaZpx 0x60#8, []) := by rfl
theorem test_decode_ldaAbs :
    decode [0b10101101#8, 0b00110100#8, 0b00010010#8] = .ok (.ldaAbs 0x1234#16, []) := by rfl
theorem test_decode_ldaAbx :
    decode [0b10111101#8, 0b00110100#8, 0b00010010#8] = .ok (.ldaAbx 0x1234#16, []) := by rfl
theorem test_decode_ldaAby :
    decode [0b10111001#8, 0b00110100#8, 0b00010010#8] = .ok (.ldaAby 0x1234#16, []) := by rfl
theorem test_decode_ldaIzx : decode [0b10100001#8, 0b00100000#8] = .ok (.ldaIzx 0x20#8, []) := by rfl
theorem test_decode_ldaIzy : decode [0b10110001#8, 0b00011000#8] = .ok (.ldaIzy 0x18#8, []) := by rfl
theorem test_decode_ldxImm : decode [0b10100010#8, 0b11101000#8] = .ok (.ldxImm 0xE8#8, []) := by rfl
theorem test_decode_ldxZp : decode [0b10100110#8, 0b00010000#8] = .ok (.ldxZp 0x10#8, []) := by rfl
theorem test_decode_ldxZpy : decode [0b10110110#8, 0b11110000#8] = .ok (.ldxZpy 0xF0#8, []) := by rfl
theorem test_decode_ldxAbs :
    decode [0b10101110#8, 0b00000111#8, 0b00000000#8] = .ok (.ldxAbs 0x0007#16, []) := by rfl
theorem test_decode_ldxAby :
    decode [0b10111110#8, 0b11110000#8, 0b00000000#8] = .ok (.ldxAby 0x00F0#16, []) := by rfl
/-- R58, R106: 0xEA is one unassigned byte; R109: the byte after 0xA0 is an opcode of its own. -/
theorem test_decode_unassigned : decode [0b11101010#8] = .ok (.unassigned 0xEA#8, []) := by rfl
theorem test_decode_desynchronises : decode [0xA0#8, 0x05#8] = .ok (.unassigned 0xA0#8, [0x05#8]) := by rfl
/-- R49: an assigned opcode without its operand bytes is no instruction. -/
theorem test_decode_missing :
    decode [] = .error (.missingByte 0) ∧ decode [0xA9#8] = .error (.missingByte 1) ∧
      decode [0xAD#8, 0x34#8] = .error (.missingByte 2) := by decide
/-- The table's numbering: the first byte is bits 7:0. -/
theorem test_decodeTableWord :
    decodeTableWord 24 0x1234AD = some (.ldaAbs 0x1234#16) ∧ decodeTableWord 8 0xFFEA = some (.unassigned 0xEA#8) := by
  decide

/-! ## LDA (95_test_vectors.md, 2.2) -/

/-- S7. -/
theorem test_ldaImm_source_scenario :
    outcome (step (start 32 [0xA9#8, 0x69#8] [])) =
      some (0x69#8, 0x00#8, false, false, 0x0002#16, .running (-1) 2) := by decide
/-- V-LDA-1. -/
theorem test_ldaImm_zero :
    outcome (step { start 65536 [0xA9#8, 0x00#8] [] with a := 0x55#8 }) =
      some (0x00#8, 0x00#8, true, false, 0x0002#16, .running (-1) 2) := by decide
/-- V-LDA-3. -/
theorem test_ldaZp_negative :
    outcome (step (start 65536 [0xA5#8, 0x48#8] [(0x48, 0x80#8)])) =
      some (0x80#8, 0x00#8, false, true, 0x0002#16, .running (-2) 3) := by decide
/-- V-LDA-4. -/
theorem test_ldaZp_reads_its_opcode :
    outcome (step (start 65536 [0xA5#8, 0x00#8] [])) =
      some (0xA5#8, 0x00#8, false, true, 0x0002#16, .running (-2) 3) := by decide
/-- V-LDA-5, S4. -/
theorem test_ldaZpx_wraps :
    outcome (step { start 65536 [0xB5#8, 0x60#8] [(0x48, 0x37#8)] with x := 0xE8#8 }) =
      some (0x37#8, 0xE8#8, false, false, 0x0002#16, .running (-3) 4) := by decide
/-- V-LDA-6. -/
theorem test_ldaZpx_wraps_to_opcode :
    outcome (step { start 65536 [0xB5#8, 0xFF#8] [] with x := 0x01#8 }) =
      some (0xB5#8, 0x01#8, false, true, 0x0002#16, .running (-3) 4) := by decide
/-- V-LDA-8. -/
theorem test_ldaAbs_zero :
    outcome (step { start 65536 [0xAD#8, 0x34#8, 0x12#8] [] with a := 0x11#8 }) =
      some (0x00#8, 0x00#8, true, false, 0x0003#16, .running (-3) 4) := by decide
/-- V-RUN-10: the operand word straddles the wrap of `PC`. -/
theorem test_ldaAbs_word_straddles_wrap :
    outcome (step { start 65536 [0x12#8] [(0xFFFE, 0xAD#8), (0xFFFF, 0x34#8), (0x1234, 0x99#8)] with pc := 0xFFFE#16 }) =
      some (0x99#8, 0x00#8, false, true, 0x0001#16, .running (-3) 4) := by decide
/-- V-LDA-10: a page is crossed and the cost is still 4. -/
theorem test_ldaAbx_page_cross :
    outcome (step { start 65536 [0xBD#8, 0xFF#8, 0x12#8] [(0x1300, 0xFF#8)] with x := 0x01#8 }) =
      some (0xFF#8, 0x01#8, false, true, 0x0003#16, .running (-3) 4) := by decide
/-- V-LDA-12. -/
theorem test_ldaAbx_wraps_at_65536 :
    outcome (step { start 65536 [0xBD#8, 0xFF#8, 0xFF#8] [] with x := 0x02#8 }) =
      some (0xFF#8, 0x02#8, false, true, 0x0003#16, .running (-3) 4) := by decide
/-- V-LDA-13. -/
theorem test_ldaAby :
    outcome (step { start 65536 [0xB9#8, 0xF0#8, 0x12#8] [(0x1310, 0x01#8)] with y := 0x20#8 }) =
      some (0x01#8, 0x00#8, false, false, 0x0003#16, .running (-3) 4) := by decide
/-- V-LDA-15: the pointer is one byte. -/
theorem test_ldaIzx_one_byte_pointer :
    outcome (step { start 65536 [0xA1#8, 0x20#8]
        [(0x24, 0x74#8), (0x25, 0x20#8), (0x74, 0x5A#8), (0x2074, 0xEE#8)] with x := 0x04#8 }) =
      some (0x5A#8, 0x04#8, false, false, 0x0002#16, .running (-5) 6) := by decide
/-- V-LDA-16: the pointer location wraps. -/
theorem test_ldaIzx_pointer_wraps :
    outcome (step { start 65536 [0xA1#8, 0xFE#8] [(0x03, 0x40#8)] with x := 0x05#8 }) =
      some (0x00#8, 0x05#8, true, false, 0x0002#16, .running (-5) 6) := by decide
/-- V-LDA-17, S5. -/
theorem test_ldaIzy_source_example :
    outcome (step { start 65536 [0xB1#8, 0x18#8] [(0x18, 0x58#8), (0x80, 0xC3#8)] with y := 0x28#8 }) =
      some (0xC3#8, 0x00#8, false, true, 0x0002#16, .running (-4) 5) := by decide
/-- V-LDA-18: the sum is 0x1FE, or 0xFE with `INDY_WRAP8`. -/
theorem test_ldaIzy_both_settings :
    let s := { start 65536 [0xB1#8, 0x10#8] [(0x10, 0xFF#8), (0x1FE, 0x11#8), (0xFE, 0x22#8)] with y := 0xFF#8 }
    (nextState (step s)).map (·.a) = some 0x11#8 ∧
      (nextState (step { s with cfg := { s.cfg with indyWrap8 := true } })).map (·.a) = some 0x22#8 := by decide

/-! ## LDX (95_test_vectors.md, 2.3) -/

/-- V-LDX-1. -/
theorem test_ldxImm_negative :
    outcome (step (start 65536 [0xA2#8, 0xE8#8] [])) =
      some (0x00#8, 0xE8#8, false, true, 0x0002#16, .running (-1) 2) := by decide
/-- V-LDX-3. -/
theorem test_ldxZp_zero :
    outcome (step { start 65536 [0xA6#8, 0x10#8] [] with x := 0x12#8 }) =
      some (0x00#8, 0x00#8, true, false, 0x0002#16, .running (-2) 3) := by decide
/-- V-LDX-5. -/
theorem test_ldxZpy_wraps :
    outcome (step { start 65536 [0xB6#8, 0xF0#8] [(0x10, 0x7F#8), (0x110, 0x99#8)] with y := 0x20#8 }) =
      some (0x00#8, 0x7F#8, false, false, 0x0002#16, .running (-3) 4) := by decide
/-- V-LDX-6: indexed by `Y`, not by the old `X`. -/
theorem test_ldxZpy_ignores_old_x :
    outcome (step { start 65536 [0xB6#8, 0x30#8] [(0x30, 0x81#8), (0x80, 0x01#8)] with x := 0x50#8 }) =
      some (0x00#8, 0x81#8, false, true, 0x0002#16, .running (-3) 4) := by decide
/-- V-LDX-7. -/
theorem test_ldxAbs :
    outcome (step (start 65536 [0xAE#8, 0x07#8, 0x00#8] [(0x07, 0xFF#8)])) =
      some (0x00#8, 0xFF#8, false, true, 0x0003#16, .running (-3) 4) := by decide
/-- V-LDX-8: no zero-page wrap. -/
theorem test_ldxAby_carries :
    outcome (step { start 65536 [0xBE#8, 0xF0#8, 0x00#8] [(0x110, 0x44#8)] with y := 0x20#8 }) =
      some (0x00#8, 0x44#8, false, false, 0x0003#16, .running (-3) 4) := by decide
/-- V-LDX-9. -/
theorem test_ldxAby_wraps_at_65536 :
    outcome (step { start 65536 [0xBE#8, 0xFF#8, 0xFF#8] [] with y := 0x02#8 }) =
      some (0x00#8, 0xFF#8, false, true, 0x0003#16, .running (-3) 4) := by decide

/-! ## Unassigned opcodes and the ends of memory (2.4, 2.5) -/

/-- V-UN-4: only `PC` and `remaining` change. -/
theorem test_unassigned_idles :
    let s := { start 16 [0xEA#8] [] with
      a := 0x12#8, x := 0x34#8, y := 0x56#8, sp := 0x78#8
      flags := { c := true, z := true, i := true, d := true, b := true, v := true, n := true } }
    nextState (step s) = some { s with pc := 0x0001#16, lifecycle := .running 0 0 } := by decide
/-- V-UN-8: the byte, its address, and `PC` advanced with the counters as they were. -/
theorem test_unassigned_strict :
    (faultOf (step { start 32 [] [] with cfg := { Config.default with memSize := 32, strictOpcodes := true } })).map
        (fun f => match f with
          | .illegalOpcode op addr left => some (op, addr, left.pc, left.lifecycle)
          | .memOutOfRange _ => none) =
      some (some (0x00#8, 0x0000#16, 0x0001#16, .running 1 0)) := by decide
/-- V-UN-3, P6: the fetch at 32 of a memory of 32 bytes. -/
theorem test_fetch_past_the_end :
    faultOf (step { start 32 [] [] with pc := 0x0020#16 }) = some (.memOutOfRange 0x20) := by decide
/-- V-RUN-11: the high operand byte does not exist. -/
theorem test_high_operand_past_the_end :
    faultOf (step (start 2 [0xAD#8, 0x00#8] [])) = some (.memOutOfRange 2) := by decide
/-- V-RUN-12: the data byte does not exist. -/
theorem test_data_past_the_end :
    faultOf (step (start 32 [0xAD#8, 0x34#8, 0x12#8] [])) = some (.memOutOfRange 0x1234) := by decide
/-- V-RUN-9: the operand is fetched from 0x0000 after the wrap. -/
theorem test_operand_after_wrap :
    outcome (step { start 65536 [0x7F#8] [(0xFFFF, 0xA9#8)] with pc := 0xFFFF#16 }) =
      some (0x7F#8, 0x00#8, false, false, 0x0001#16, .running (-1) 2) := by decide

/-! ## Flags, memory, host commands -/

/-- V-ZN-6 and S3: the inert flags stay, `Z` and `N` are not sticky. -/
theorem test_setZN :
    let f : Flags := { c := true, z := true, i := true, d := true, b := true, v := true, n := true }
    f.setZN 0x00#8 = { f with n := false } ∧ f.setZN 0x80#8 = { f with z := false } ∧
      f.setZN 0x7F#8 = { f with z := false, n := false } := by decide
/-- Writing 0x00 unlists a byte, so that equal memories are equal data. -/
theorem test_memory_canonical :
    Memory.write (Memory.write [] 5 0x12#8) 3 0x34#8 = [(3, 0x34#8), (5, 0x12#8)] ∧
      Memory.write [(3, 0x34#8), (5, 0x12#8)] 3 0x00#8 = [(5, 0x12#8)] := by decide
/-- V-RUN-14: a program loaded before `reset` is erased by it. -/
theorem test_reset_erases_program :
    (nextState (step { start 32 [0xA9#8, 0x69#8] [] with lifecycle := .haltedByBudget, host := [.reset] })).map
      (fun t => (t.mem, t.lifecycle)) = some ([], .reset) := by decide
/-- V-RUN-13: `run` before `reset`. -/
theorem test_run_before_reset :
    refusalOf (step { State.reset with lifecycle := .uninitialized, host := [.run 1] }) = some .uninitialized := by
  decide
/-- R134, S7: the commands of the source's scenario after its program is loaded start a run of budget 1. -/
theorem test_run_starts :
    (nextState (step { State.reset with host := [.run 1] })).map (·.lifecycle) = some (.running 1 0) := by decide
/-- The end of S7: the loop condition fails at -1 and 2 is returned. -/
theorem test_run_returns_two :
    (nextState (step { State.reset with lifecycle := .running (-1) 2 })).map (fun t => (t.lifecycle, t.answer)) =
      some (.haltedByBudget, some (.total 2)) := by decide
/-- What the host's check uses: the instruction placed after reset is the one the next step runs. -/
theorem test_withFetchWord :
    outcome (step (State.reset.withFetchWord 16 0x69A9)) =
      some (0x69#8, 0x00#8, false, false, 0x0002#16, .running (-1) 2) := by decide

/-! ## Witnesses: hypotheses that can be met, at the boundaries of their ranges

`witness_zeroPage` and `witness_absolute` serve the LDA and the LDX form of their mode; `witness_frame_lda`,
`witness_frame_ldx` and `witness_frame_idle` serve every statement whose hypothesis is that `exec` answers a next state;
`witness_stepNext` and `witness_invariant_running` every one whose hypothesis is that `step` does. -/

theorem witness_resetCommand :
    let s := { State.reset with lifecycle := .haltedByBudget, host := [.reset] }
    s.host = .reset :: [] ∧ s.lifecycle = .haltedByBudget := by decide
theorem witness_setZN :
    (0x00#8).toNat = 0 ∧ 1 ≤ (0x01#8).toNat ∧ (0x7F#8).toNat ≤ 127 ∧ 128 ≤ (0x80#8).toNat := by decide
theorem witness_loadFlags_lda : ∃ t, exec (.ldaImm 0x00#8) State.reset = .next t ∧ isLda (.ldaImm 0x00#8) = true :=
  ⟨_, rfl, rfl⟩
theorem witness_loadFlags_ldx : ∃ t, exec (.ldxImm 0x80#8) State.reset = .next t ∧ isLdx (.ldxImm 0x80#8) = true :=
  ⟨_, rfl, rfl⟩
theorem witness_memRead :
    (0x1F#16).toNat < (start 32 [] []).cfg.memSize ∧ (start 32 [] []).cfg.memSize ≤ (0x20#16).toNat := by decide
theorem witness_memWrite :
    Memory.wf (start 32 [0xA9#8] []).mem = true ∧ 0x1F < (start 32 [] []).cfg.memSize ∧
      (start 32 [] []).cfg.memSize ≤ 0x20 := by decide
theorem witness_fetchByte :
    let s := { start 32 [] [] with pc := 0x001F#16 }
    let s' := { start 32 [] [] with pc := 0x0020#16 }
    s.pc.toNat < s.cfg.memSize ∧ s'.cfg.memSize ≤ s'.pc.toNat := by decide
theorem witness_fetchWord :
    let s := { start 65536 [] [] with pc := 0xFFFF#16 }
    let s' := { start 32 [] [] with pc := 0x001F#16 }
    s.pc.toNat < s.cfg.memSize ∧ (s.pc.toNat + 1) % 65536 < s.cfg.memSize ∧
      s'.pc.toNat < s'.cfg.memSize ∧ s'.cfg.memSize ≤ (s'.pc.toNat + 1) % 65536 := by decide
theorem witness_fetchOutOfRange :
    (start 2 [0xAD#8, 0x07#8] []).AtInstruction ∧ (start 2 [0xAD#8, 0x07#8] []).BytesAt 0x0000#16 [0xAD#8, 0x07#8] ∧
      decode [0xAD#8, 0x07#8] = .error (.missingByte 2) ∧
      (start 2 [0xAD#8, 0x07#8] []).cfg.memSize ≤ (0 + 2) % 65536 :=
  ⟨⟨1, 0, rfl, by decide⟩, ⟨by decide, rfl, by decide, rfl, trivial⟩, rfl, by decide⟩
theorem witness_fetchOutOfRange_opcode :
    (start 0 [] []).AtInstruction ∧ (start 0 [] []).BytesAt 0x0000#16 [] ∧ decode [] = .error (.missingByte 0) ∧
      (start 0 [] []).cfg.memSize ≤ (0 + 0) % 65536 :=
  ⟨⟨1, 0, rfl, by decide⟩, trivial, rfl, by decide⟩
theorem witness_roundTrip : (Instr.ldaAbs 0xFFFF#16).wf = true ∧ (Instr.unassigned 0xFF#8).wf = true := by decide
theorem witness_reEncode : decode [0xB9#8, 0xFF#8, 0xFF#8] = .ok (.ldaAby 0xFFFF#16, []) := by rfl
theorem witness_opcodeLength :
    isUnassigned 0xA0#8 = true ∧ isUnassigned 0xA1#8 = false ∧ isUnassigned 0xBE#8 = false ∧
      [0x34#8, 0x12#8].length + 1 = opcodeLength 0xBE#8 ∧ [0x34#8].length + 1 = opcodeLength 0xA1#8 ∧
      ([] : List Byte).length + 1 = opcodeLength 0xA0#8 := by decide
theorem witness_stepRuns :
    (start 2 [0xA9#8, 0x69#8] []).AtInstruction ∧ (start 2 [0xA9#8, 0x69#8] []).BytesAt 0x0000#16 [0xA9#8, 0x69#8] ∧
      decode [0xA9#8, 0x69#8] = .ok (.ldaImm 0x69#8, []) :=
  ⟨⟨1, 0, rfl, by decide⟩, ⟨by decide, rfl, by decide, rfl, trivial⟩, rfl⟩
theorem witness_zeroPage :
    (0xFF#8).toNat < (start 256 [] []).cfg.memSize ∧ (start 255 [] []).cfg.memSize ≤ (0xFF#8).toNat := by decide
theorem witness_zeroPageX :
    let s := { start 255 [] [] with x := 0xFF#8 }
    0xFE = ((0xFF#8).toNat + s.x.toNat) % 256 ∧ 0xFE < s.cfg.memSize ∧
      0xFF = ((0x00#8).toNat + s.x.toNat) % 256 ∧ s.cfg.memSize ≤ 0xFF := by decide
theorem witness_zeroPageY :
    let s := { start 255 [] [] with y := 0xFF#8 }
    0xFE = ((0xFF#8).toNat + s.y.toNat) % 256 ∧ 0xFE < s.cfg.memSize ∧
      0xFF = ((0x00#8).toNat + s.y.toNat) % 256 ∧ s.cfg.memSize ≤ 0xFF := by decide
theorem witness_absolute :
    (0xFFFF#16).toNat < (start 65536 [] []).cfg.memSize ∧ (start 65535 [] []).cfg.memSize ≤ (0xFFFF#16).toNat := by
  decide
theorem witness_absoluteX :
    let s := { start 256 [] [] with x := 0xFF#8 }
    0xFE = ((0xFFFF#16).toNat + s.x.toNat) % 65536 ∧ 0xFE < s.cfg.memSize ∧
      0x100 = ((0x0001#16).toNat + s.x.toNat) % 65536 ∧ s.cfg.memSize ≤ 0x100 := by decide
theorem witness_absoluteY :
    let s := { start 256 [] [] with y := 0xFF#8 }
    0xFE = ((0xFFFF#16).toNat + s.y.toNat) % 65536 ∧ 0xFE < s.cfg.memSize ∧
      0x100 = ((0x0001#16).toNat + s.y.toNat) % 65536 ∧ s.cfg.memSize ≤ 0x100 := by decide
theorem witness_indexedIndirect_inRange :
    let s := { start 256 [] [(0x00, 0xFF#8)] with x := 0x01#8 }
    0x00 = ((0xFF#8).toNat + s.x.toNat) % 256 ∧ 0xFF = (Memory.read s.mem 0x00).toNat ∧
      0x00 < s.cfg.memSize ∧ 0xFF < s.cfg.memSize := by decide
theorem witness_indexedIndirect_dataOut :
    let s := { start 255 [] [(0x00, 0xFF#8)] with x := 0x01#8 }
    0x00 = ((0xFF#8).toNat + s.x.toNat) % 256 ∧ 0xFF = (Memory.read s.mem 0x00).toNat ∧
      0x00 < s.cfg.memSize ∧ s.cfg.memSize ≤ 0xFF := by decide
theorem witness_indexedIndirect_pointerOut :
    let s := { start 255 [] [] with x := 0xFF#8 }
    0xFF = ((0x00#8).toNat + s.x.toNat) % 256 ∧ 0x00 = (Memory.read s.mem 0xFF).toNat ∧ s.cfg.memSize ≤ 0xFF := by
  decide
theorem witness_indirectIndexed_inRange :
    let s := { start 511 [] [(0x10, 0xFF#8)] with y := 0xFF#8 }
    510 = (Memory.read s.mem (0x10#8).toNat).toNat + s.y.toNat ∧
      510 = (if s.cfg.indyWrap8 = true then 510 % 256 else 510) ∧ (0x10#8).toNat < s.cfg.memSize ∧
      510 < s.cfg.memSize := by decide
theorem witness_indirectIndexed_wrapped :
    let s := { start 511 [] [(0x10, 0xFF#8)] with y := 0xFF#8, cfg := { memSize := 255, indyWrap8 := true, strictOpcodes := false } }
    510 = (Memory.read s.mem (0x10#8).toNat).toNat + s.y.toNat ∧
      254 = (if s.cfg.indyWrap8 = true then 510 % 256 else 510) ∧ (0x10#8).toNat < s.cfg.memSize ∧
      254 < s.cfg.memSize := by decide
theorem witness_indirectIndexed_dataOut :
    let s := { start 510 [] [(0x10, 0xFF#8)] with y := 0xFF#8 }
    510 = (Memory.read s.mem (0x10#8).toNat).toNat + s.y.toNat ∧
      510 = (if s.cfg.indyWrap8 = true then 510 % 256 else 510) ∧ (0x10#8).toNat < s.cfg.memSize ∧
      s.cfg.memSize ≤ 510 := by decide
theorem witness_indirectIndexed_pointerOut :
    let s := start 255 [] []
    0 = (Memory.read s.mem (0xFF#8).toNat).toNat + s.y.toNat ∧ 0 = (if s.cfg.indyWrap8 = true then 0 % 256 else 0) ∧
      s.cfg.memSize ≤ (0xFF#8).toNat := by decide
theorem witness_unassigned :
    State.reset.cfg.strictOpcodes = false ∧
      ({ State.reset with cfg := { Config.default with strictOpcodes := true } } : State).cfg.strictOpcodes = true := by
  decide
theorem witness_strictIrrelevant :
    IsAssigned (.ldaImm 0x01#8) ∧ IsAssigned (.ldaZp 0xFF#8) ∧
      (∃ t, exec (.ldaImm 0x01#8) (start 255 [] []) = .next t) ∧
      exec (.ldaZp 0xFF#8) (start 255 [] []) = .fault (.memOutOfRange 0xFF) :=
  ⟨(fun _ h => by cases h), (fun _ h => by cases h), ⟨_, rfl⟩, rfl⟩
theorem witness_ldaContract :
    isLda (.ldaZp 0xFF#8) = true ∧ effectiveValue (.ldaZp 0xFF#8) (start 256 [] [(0xFF, 0x80#8)]) = .ok 0x80#8 ∧
      effectiveValue (.ldaZp 0xFF#8) (start 255 [] []) = .error 0xFF := ⟨rfl, rfl, rfl⟩
theorem witness_ldxContract :
    isLdx (.ldxAby 0xFFFF#16) = true ∧
      effectiveValue (.ldxAby 0xFFFF#16) { start 16 [0x00#8, 0x44#8] [] with y := 0x02#8 } = .ok 0x44#8 ∧
      effectiveValue (.ldxAby 0xFFFF#16) (start 65535 [] []) = .error 0xFFFF := ⟨rfl, rfl, rfl⟩
theorem witness_frame_lda : ∃ t, exec (.ldaZp 0xFF#8) (start 256 [] []) = .next t := ⟨_, rfl⟩
theorem witness_frame_ldx : ∃ t, exec (.ldxZp 0xFF#8) (start 256 [] []) = .next t := ⟨_, rfl⟩
theorem witness_frame_idle :
    isLda (.unassigned 0x00#8) = false ∧ isLdx (.unassigned 0x00#8) = false ∧
      ∃ t, exec (.unassigned 0x00#8) (start 256 [] []) = .next t := ⟨rfl, rfl, _, rfl⟩
theorem witness_cycles :
    (start 1 [] []).lifecycle = .running 1 0 ∧ ∃ t, exec (.ldaIzx 0x00#8) (start 1 [] []) = .next t := ⟨rfl, _, rfl⟩
theorem witness_stops :
    exec (.ldaAbs 0xFFFF#16) (start 65535 [] []) = .fault (.memOutOfRange 0xFFFF) := by rfl
theorem witness_neverStops : NeverStops State.reset.cfg ∧ (start 65536 [] []).AtInstruction :=
  ⟨by decide, 1, 0, rfl, by decide⟩
/-- V-AM-12 and V-AM-14: the addresses R85's corner case gives under both settings. -/
theorem test_indirectAddresses :
    eaIzx 0xFF#8 { start 256 [] [(0x00, 0xA1#8)] with x := 0x01#8 } = .ok 0x00A1#16 ∧
      eaIzy 0x10#8 { start 256 [] [(0x10, 0xFF#8)] with y := 0xFF#8 } = .ok 0x01FE#16 ∧
      eaIzy 0x10#8 { start 256 [] [(0x10, 0xFF#8)] with
        y := 0xFF#8, cfg := { memSize := 256, indyWrap8 := true, strictOpcodes := false } } = .ok 0x00FE#16 :=
  ⟨rfl, rfl, rfl⟩
theorem witness_effectiveAddress_exists :
    let s := { start 256 [] [(0xFF, 0xFF#8)] with x := 0x00#8, y := 0xFF#8 }
    0xFF = ((0xFF#8).toNat + s.x.toNat) % 256 ∧ 510 = (Memory.read s.mem (0xFF#8).toNat).toNat + s.y.toNat ∧
      0xFF < s.cfg.memSize ∧ (0xFF#8).toNat < s.cfg.memSize := by decide
theorem witness_effectiveAddress_missing :
    let s := { start 255 [] [] with x := 0x00#8, y := 0xFF#8 }
    0xFF = ((0xFF#8).toNat + s.x.toNat) % 256 ∧ 255 = (Memory.read s.mem (0xFF#8).toNat).toNat + s.y.toNat ∧
      s.cfg.memSize ≤ 0xFF ∧ s.cfg.memSize ≤ (0xFF#8).toNat ∧ 255 < 256 := by decide
theorem witness_effectiveAddress_wrap :
    let s := { start 255 [] [(0x10, 0xFF#8)] with
      y := 0x01#8, cfg := { memSize := 17, indyWrap8 := true, strictOpcodes := false } }
    256 = (Memory.read s.mem (0x10#8).toNat).toNat + s.y.toNat ∧ (0x10#8).toNat < s.cfg.memSize ∧
      s.cfg.indyWrap8 = true := by decide
/-- P1 (b), in part: of an LDA and the two idle cycles after it, the idle ones are counted apart from the handler's. -/
theorem test_executed :
    let s := { start 32 [0xA9#8, 0x69#8] [] with lifecycle := .running 4 0 }
    executed 3 s = [.ldaImm 0x69#8, .unassigned 0x00#8, .unassigned 0x00#8] ∧
      handlerCycles (executed 3 s) = 2 ∧ idleCycles (executed 3 s) = 2 := by decide
theorem witness_onePointerByte :
    Memory.read [(0x24, 0x74#8)] (((0x20#8).toNat + (0x04#8).toNat) % 256) =
      Memory.read [(0x24, 0x74#8), (0x25, 0x20#8)] (((0x20#8).toNat + (0x04#8).toNat) % 256) ∧
    Memory.read [(0x18, 0x58#8)] (0x18#8).toNat = Memory.read [(0x18, 0x58#8), (0x19, 0x01#8)] (0x18#8).toNat := by
  decide
theorem witness_runStarts :
    ({ State.reset with host := [.run 1] } : State).Idle ∧
      ({ State.reset with host := [.run 1] } : State).host = .run 1 :: [] := ⟨.inl rfl, rfl⟩
theorem witness_runEnd :
    ({ State.reset with lifecycle := .running 0 2 } : State).lifecycle = .running 0 2 ∧ (0 : Int) ≤ 0 := by decide
theorem witness_zeroBudget :
    ({ State.reset with lifecycle := .haltedByBudget, host := [.run 0] } : State).Idle ∧
      ({ State.reset with lifecycle := .haltedByBudget, host := [.run 0] } : State).host = .run 0 :: [] ∧
      (0 : Int) ≤ 0 := ⟨.inr rfl, rfl, by decide⟩
theorem witness_notTruncated :
    (start 256 [0xA1#8, 0x10#8] [(0x10, 0x20#8), (0x20, 0x01#8)]).lifecycle = .running 1 0 ∧
      (start 256 [0xA1#8, 0x10#8] [(0x10, 0x20#8), (0x20, 0x01#8)]).BytesAt 0x0000#16 [0xA1#8, 0x10#8] ∧
      decode [0xA1#8, 0x10#8] = .ok (.ldaIzx 0x10#8, []) ∧ IsAssigned (.ldaIzx 0x10#8) ∧
      ∃ t, exec (.ldaIzx 0x10#8) (start 256 [0xA1#8, 0x10#8] [(0x10, 0x20#8), (0x20, 0x01#8)]) = .next t :=
  ⟨rfl, ⟨by decide, rfl, by decide, rfl, trivial⟩, rfl, (fun _ h => by cases h), _, rfl⟩
theorem witness_everyRun :
    ({ State.reset with lifecycle := .running 1 0 } : State).lifecycle = .running 1 0 ∧
      ({ State.reset with lifecycle := .running (-5) 0 } : State).lifecycle = .running (-5) 0 ∧
      NeverStops ({ State.reset with lifecycle := .running 1 0 } : State).cfg ∧ (1 : Int) ≤ 1 := by decide
theorem witness_hostExcluded :
    (start 1 [] []).lifecycle = .running 1 0 ∧ ∃ t, step (start 1 [] []) = .next t := ⟨rfl, _, rfl⟩
theorem witness_inertFlags :
    ({ start 1 [] [] with flags := { Flags.allClear with c := true } } : State).lifecycle = .running 1 0 ∧
      (∃ t, step { start 1 [] [] with flags := { Flags.allClear with c := true } } = .next t) ∧ Flag.z ≠ Flag.c :=
  ⟨rfl, ⟨_, rfl⟩, by decide⟩
theorem witness_hostMemory :
    let s := { State.resetWith { Config.default with memSize := 32 } with host := [.writeMem 31 0x69#8, .readMem 31] }
    s.lifecycle = .reset ∧ Memory.wf s.mem = true ∧ 31 < s.cfg.memSize ∧
      s.host = .writeMem 31 0x69#8 :: .readMem 31 :: [] := by decide
theorem witness_hostOutOfRange :
    let s := { State.resetWith { Config.default with memSize := 32 } with host := [.readMem 32] }
    s.lifecycle = .reset ∧ s.cfg.memSize ≤ 32 ∧ s.host = .readMem 32 :: [] := by decide
theorem witness_hostOutOfRange_write :
    let s := { State.resetWith { Config.default with memSize := 32 } with
      lifecycle := .haltedByBudget, host := [.writeMem 32 0x01#8] }
    s.lifecycle = .haltedByBudget ∧ s.cfg.memSize ≤ 32 ∧ s.host = .writeMem 32 0x01#8 :: [] := by decide
theorem witness_hostRegister :
    let s := { State.reset with host := [.writeReg .y 0x28#8, .readReg .y] }
    s.lifecycle = .reset ∧ s.host = .writeReg .y 0x28#8 :: .readReg .y :: [] := by decide
theorem witness_hostPC :
    let s := { State.reset with host := [.writePC 0xFFFF#16, .readPC] }
    s.lifecycle = .reset ∧ s.host = .writePC 0xFFFF#16 :: .readPC :: [] := by decide
theorem witness_hostFlag :
    let s := { State.reset with host := [.writeFlag .c true, .readFlag .c] }
    s.lifecycle = .reset ∧ s.host = .writeFlag .c true :: .readFlag .c :: [] := by decide
theorem witness_beforeReset :
    let s := { State.reset with lifecycle := .uninitialized, host := [.readPC] }
    let s' := { State.reset with lifecycle := .uninitialized, host := [.writeMem 65535 0x01#8] }
    s.lifecycle = .uninitialized ∧ s.host = .readPC :: [] ∧ HostOp.readPC.needsReset = true ∧
      s'.host = .writeMem 65535 0x01#8 :: [] ∧ (HostOp.writeMem 65535 0x01#8).needsReset = false ∧
      HostOp.writeMem 65535 0x01#8 ≠ .reset ∧ HostOp.writeMem 65535 0x01#8 ≠ .destroy ∧
      65535 < s'.cfg.memSize := by decide
theorem witness_destroyed :
    let s := { State.reset with lifecycle := .destroyed, host := [.reset] }
    let s' := { State.reset with host := [.destroy] }
    s.host = .reset :: [] ∧ s.lifecycle = .destroyed ∧ s'.host = .destroy :: [] ∧ s'.lifecycle = .reset := by decide
theorem witness_stepNext : ∃ t, step State.reset = .next t := ⟨_, rfl⟩
theorem witness_invariant : State.reset.Inv ∧ ∃ t, step State.reset = .next t := ⟨⟨rfl, rfl, trivial⟩, _, rfl⟩
theorem witness_invariant_running :
    (start 2 [0xA9#8, 0x69#8] []).Inv ∧ ∃ t, step (start 2 [0xA9#8, 0x69#8] []) = .next t :=
  ⟨⟨rfl, rfl, rfl, .inl (by decide)⟩, _, rfl⟩

end Sys2Proof.Tests
end

section
/-!
Which instructions stop and how, and that no step changes a parameter (00_scope.md R5, R8).
-/

namespace Sys2Proof.Machine

variable {s t : State}

/-! ## The kinds of instruction and what each can stop with -/

/-- An instruction is a load or an unassigned opcode (R54, R55). -/
theorem isLda_or_isLdx_or_unassigned (i : Instr) :
    (isLda i = true ∨ isLdx i = true) ∨ ∃ op, i = .unassigned op := by
  cases i with
  | unassigned op => exact .inr ⟨op, rfl⟩
  | _ => simp [isLda, isLdx]

theorem isAssigned_of_isLda_or_isLdx {i : Instr} (hi : isLda i = true ∨ isLdx i = true) : IsAssigned i := by
  rintro op rfl
  simp [isLda, isLdx] at hi

/-- Both families are the shared load of the effective value, each into its own register. -/
theorem exec_eq_load {i : Instr} (hi : isLda i = true ∨ isLdx i = true) (s : State) :
    ∃ target, exec i s = load target i.length (budgetCost i) (liftValue (effectiveValue i s)) s := by
  rcases hi with hA | hX
  · exact ⟨.a, exec_lda_eq hA s⟩
  · exact ⟨.x, exec_ldx_eq hX s⟩

theorem liftValue_eq_error_iff {value : Except Nat Byte} {f : Fault} :
    liftValue value = .error f ↔ ∃ addr, value = .error addr ∧ f = .memOutOfRange addr := by
  cases value with
  | ok v => simp
  | error addr => simp [eq_comm]

/-- A load that faults names the address its effective value has no byte at (R35, R114). -/
theorem exec_load_fault_iff {i : Instr} (hi : isLda i = true ∨ isLdx i = true) {f : Fault} :
    exec i s = .fault f ↔ ∃ addr, effectiveValue i s = .error addr ∧ f = .memOutOfRange addr := by
  obtain ⟨target, he⟩ := exec_eq_load hi s
  rw [he, load_fault_iff, liftValue_eq_error_iff]

/-- Strict mode stops at an unassigned opcode, with `PC` past it; otherwise it is an idle cycle (R106, R107). -/
theorem exec_unassigned_eq (op : Byte) (s : State) :
    exec (.unassigned op) s =
      if s.cfg.strictOpcodes then .fault (.illegalOpcode op s.pc { s with pc := s.pc + 1#16 })
      else .next s.afterIdle := by
  simp only [← State.idled_eq]; rfl

theorem exec_unassigned_fault_iff {op : Byte} {f : Fault} :
    exec (.unassigned op) s = .fault f ↔
      s.cfg.strictOpcodes = true ∧ f = .illegalOpcode op s.pc { s with pc := s.pc + 1#16 } := by
  by_cases hs : s.cfg.strictOpcodes = true
  · simp [exec_unassigned_eq, hs, eq_comm]
  · simp [exec_unassigned_eq, hs]

/-- Every instruction has its meaning: `Refusal.notModelled` is raised by none. -/
theorem exec_not_refused (i : Instr) (s : State) (r : Refusal) : exec i s ≠ .refused r := by
  rcases isLda_or_isLdx_or_unassigned i with hi | ⟨op, rfl⟩
  · obtain ⟨target, he⟩ := exec_eq_load hi s
    rw [he]
    exact load_not_refused
  · rw [exec_unassigned_eq]
    split <;> simp

/-- Settles O39: a load faults only where its effective value has no byte, and an unassigned opcode only in strict mode. -/
theorem instructionsStopOnlyAsNamed : Obligations.InstructionsStopOnlyAsNamed := by
  intro i s
  refine ⟨exec_not_refused i s, fun f hf => ?_⟩
  rcases isLda_or_isLdx_or_unassigned i with hi | ⟨op, rfl⟩
  · obtain ⟨addr, hv, rfl⟩ := (exec_load_fault_iff hi).1 hf
    obtain ⟨hge, hlt⟩ := effectiveValue_error hi hv
    exact .inl ⟨addr, rfl, hge, hlt, isAssigned_of_isLda_or_isLdx hi⟩
  · obtain ⟨hs, rfl⟩ := exec_unassigned_fault_iff.1 hf
    exact .inr ⟨op, rfl, hs, rfl⟩

/-! ## The parameters -/

@[simp] theorem State.hostReset_cfg (s : State) : s.hostReset.cfg = s.cfg := rfl

theorem exec_cfg {i : Instr} (h : exec i s = .next t) : t.cfg = s.cfg := by
  rcases exec_next_cases h with ⟨-, v, -, rfl⟩ | ⟨-, v, -, rfl⟩ | ⟨op, -, -, rfl⟩
  · exact State.afterLda_cfg ..
  · exact State.afterLdx_cfg ..
  · exact State.afterIdle_cfg ..

/-- No command of the host changes a parameter, `reset` and `destroy` included (R127, R130). -/
theorem perform_cfg {op : HostOp} (h : State.perform op s = .next t) : t.cfg = s.cfg := by
  obtain ⟨-, ⟨-, rfl⟩ | ⟨b, -, rfl⟩ | ⟨-, rfl⟩ | ⟨addr, -, -, rfl⟩ | ⟨addr, v, -, -, rfl⟩ | ⟨r, -, rfl⟩ |
    ⟨r, v, -, rfl⟩ | ⟨-, rfl⟩ | ⟨v, -, rfl⟩ | ⟨f, -, rfl⟩ | ⟨f, v, -, rfl⟩⟩ := perform_next_cases h <;> simp

/-- Settles O58, by what a step can be: an instruction, the end of a run, no command to come, or a command. -/
theorem parametersNeverChange : Obligations.ParametersNeverChange := by
  intro s t h
  rcases step_next_cases h with ⟨r, c, bs, i, -, -, -, -, he⟩ | ⟨r, c, -, -, rfl⟩ | ⟨-, ⟨-, rfl⟩ | ⟨op, rest, -, hp⟩⟩
  · exact exec_cfg he
  · exact State.finishRun_cfg ..
  · rfl
  · calc t.cfg
      _ = ({ s with host := rest } : State).cfg := perform_cfg hp
      _ = s.cfg := rfl

end Sys2Proof.Machine
end

section
/-!
The registers, flags and memory of the unit (10_state.md): what an instruction changes and leaves, what influences it, the
host's access to the flags, and the invariant that every step keeps.
-/

namespace Sys2Proof.Machine

variable {s t : State}

/-! ## What an instruction does, field by field -/

theorem isLda_eq_false_of_isLdx {i : Instr} (h : isLdx i = true) : isLda i = false := by
  cases i <;> simp_all [isLda, isLdx]

/-- A load counts every cycle it takes; only an idle cycle is left out (R65, R67). -/
theorem countedCost_eq_budgetCost {i : Instr} (hi : isLda i = true ∨ isLdx i = true) :
    countedCost i = budgetCost i := by
  cases i with
  | unassigned op => simp [isLda, isLdx] at hi
  | _ => rfl

theorem exec_mem {i : Instr} (h : exec i s = .next t) : t.mem = s.mem := by
  rcases exec_next_cases h with ⟨-, v, -, rfl⟩ | ⟨-, v, -, rfl⟩ | ⟨op, -, -, rfl⟩
  · exact State.afterLda_mem ..
  · exact State.afterLdx_mem ..
  · exact State.afterIdle_mem ..

theorem exec_answer {i : Instr} (h : exec i s = .next t) : t.answer = s.answer := by
  rcases exec_next_cases h with ⟨-, v, -, rfl⟩ | ⟨-, v, -, rfl⟩ | ⟨op, -, -, rfl⟩
  · exact State.afterLda_answer ..
  · exact State.afterLdx_answer ..
  · exact State.afterIdle_answer ..

theorem exec_pc {i : Instr} (h : exec i s = .next t) : t.pc = s.pc + BitVec.ofNat 16 i.length := by
  rcases exec_next_cases h with ⟨-, v, -, rfl⟩ | ⟨-, v, -, rfl⟩ | ⟨op, rfl, -, rfl⟩
  · exact State.afterLda_pc ..
  · exact State.afterLdx_pc ..
  · exact State.afterIdle_pc ..

/-- The counters move by the two columns of the timing table (R138). -/
theorem exec_lifecycle {i : Instr} (h : exec i s = .next t) :
    t.lifecycle = s.lifecycle.spend (budgetCost i) (countedCost i) := by
  rcases exec_next_cases h with ⟨hA, v, -, rfl⟩ | ⟨hX, v, -, rfl⟩ | ⟨op, rfl, -, rfl⟩
  · rw [countedCost_eq_budgetCost (.inl hA), Lifecycle.spend_same_eq, State.afterLda_lifecycle]
  · rw [countedCost_eq_budgetCost (.inr hX), Lifecycle.spend_same_eq, State.afterLdx_lifecycle]
  · exact (Lifecycle.spend_idle_eq _).symm

/-! ## The invariant -/

/-- Only a run has counters to bound. -/
theorem Lifecycle.countersOk_iff {l : Lifecycle} {answer : Option HostValue} :
    l.CountersOk answer ↔ ∀ r c, l = .running r c → answer = none ∧ (-5 ≤ r ∨ c = 0) := by
  cases l <;> simp [Lifecycle.CountersOk]

/-- The invariant does not speak of the commands to come. -/
theorem State.Inv.with_host (hs : s.Inv) (later : List HostOp) : ({ s with host := later } : State).Inv :=
  ⟨hs.memWf, hs.memBelow, hs.counters⟩

theorem State.Inv.finishRun (hs : s.Inv) (c : Nat) : (s.finishRun c).Inv :=
  ⟨hs.memWf, hs.memBelow, trivial⟩

/-- A turn of the loop begins with at least one cycle left and takes at most six, hence the bound of five below zero
(R69). -/
theorem exec_keeps_inv {i : Instr} {r : Int} {c : Nat} (hs : s.Inv) (hl : s.lifecycle = .running r c) (hr : 0 < r)
    (h : exec i s = .next t) : t.Inv where
  memWf := by rw [exec_mem h]; exact hs.memWf
  memBelow := by rw [exec_cfg h, exec_mem h]; exact hs.memBelow
  counters := by
    obtain ⟨hanswer, -⟩ := Lifecycle.countersOk_iff.1 hs.counters r c hl
    have hcost := (budgetCost_bounds i).2
    rw [exec_lifecycle h, exec_answer h, hl]
    exact ⟨hanswer, .inl (by omega)⟩

/-- After `reset` nothing is listed, and there are no counters (R25). -/
theorem State.inv_resetWith (cfg : Config) : (State.resetWith cfg).Inv :=
  ⟨State.resetWith_mem_wf cfg, rfl, trivial⟩

/-- While a run is under way the host has no move (R125). -/
theorem not_running_of_hostRefusal_eq_none {l : Lifecycle} {op : HostOp} (h : hostRefusal l op = none)
    (r : Int) (c : Nat) : l ≠ .running r c := by
  rintro rfl
  simp [hostRefusal] at h

/-- A command that completes is `reset`, the start of a run, `destroy`, or an access that leaves the lifecycle state and
changes at most one byte of memory, one that exists. -/
theorem perform_lifecycle_mem_cases {op : HostOp} (h : State.perform op s = .next t) :
    t = s.hostReset ∨ (∃ b, t = s.startRun b) ∨ t = s.destroy ∨
      (t.lifecycle = s.lifecycle ∧
        (t.mem = s.mem ∨ ∃ addr v, addr < s.cfg.memSize ∧ t.mem = Memory.write s.mem addr v)) := by
  obtain ⟨-, ⟨-, rfl⟩ | ⟨b, -, rfl⟩ | ⟨-, rfl⟩ | ⟨addr, -, -, rfl⟩ | ⟨addr, v, -, hlt, rfl⟩ | ⟨r, -, rfl⟩ |
    ⟨r, v, -, rfl⟩ | ⟨-, rfl⟩ | ⟨v, -, rfl⟩ | ⟨f, -, rfl⟩ | ⟨f, v, -, rfl⟩⟩ := perform_next_cases h
  case inr.inr.inr.inr.inl => exact .inr (.inr (.inr ⟨rfl, .inr ⟨addr, v, hlt, rfl⟩⟩))
  all_goals simp

/-- A run that a command starts has counted nothing and answered nothing; every other command leaves no run under way. -/
theorem perform_keeps_inv {op : HostOp} (hs : s.Inv) (h : State.perform op s = .next t) : t.Inv := by
  rcases perform_lifecycle_mem_cases h with rfl | ⟨b, rfl⟩ | rfl | ⟨hl, hmem⟩
  · exact (State.inv_resetWith s.cfg).with_host s.host
  · exact ⟨hs.memWf, hs.memBelow, rfl, .inr rfl⟩
  · exact ⟨hs.memWf, hs.memBelow, trivial⟩
  · have hcounters : t.lifecycle.CountersOk t.answer := Lifecycle.countersOk_iff.2 fun r c hr =>
      absurd (hl ▸ hr) (not_running_of_hostRefusal_eq_none (perform_next_cases h).1 r c)
    rcases hmem with hmem | ⟨addr, v, hlt, hmem⟩
    · exact ⟨hmem ▸ hs.memWf, by rw [hmem, perform_cfg h]; exact hs.memBelow, hcounters⟩
    · refine ⟨?_, ?_, hcounters⟩
      · rw [hmem]; exact Memory.wf_write _ addr v hs.memWf
      · rw [hmem, perform_cfg h]; exact Memory.below_write hlt v hs.memBelow

/-- Settles O59, by what a step can be: an instruction, the end of a run, no command to come, or a command. -/
theorem stepKeepsTheInvariant : Obligations.StepKeepsTheInvariant := by
  intro s t hs h
  rcases step_next_cases h with ⟨r, c, bs, i, hl, hr, -, -, he⟩ | ⟨r, c, -, -, rfl⟩ |
    ⟨-, ⟨-, rfl⟩ | ⟨op, rest, -, hp⟩⟩
  · exact exec_keeps_inv hs hl hr he
  · exact hs.finishRun c
  · exact hs
  · exact perform_keeps_inv (hs.with_host rest) hp

/-- A unit just created lists no byte from `MEMSIZE` up, because its contents are cut there. -/
theorem State.inv_create (cfg : Config) (p : PowerOn) (host : List HostOp) : (State.create cfg p host).Inv where
  memWf := Memory.wf_ofBytesFrom ..
  memBelow := Memory.below_ofBytesFrom _ _ _ (by rw [Nat.zero_add]; exact List.length_take_le ..)
  counters := trivial

/-- Settles O60. -/
theorem resetAndCreateMeetTheInvariant : Obligations.ResetAndCreateMeetTheInvariant :=
  ⟨State.inv_resetWith, State.inv_resetWith Config.default, State.inv_create⟩

/-! ## What influences an instruction -/

/-- The address arithmetic reads `X`, `Y`, the parameters and memory alone (R77 to R85). -/
theorem effectiveValue_inert (i : Instr) (s : State) (a sp : Byte) (g : Flags) :
    effectiveValue i { s with a := a, sp := sp, flags := g } = effectiveValue i s := rfl

theorem exec_lda_of_value {i : Instr} {v : Byte} (hA : isLda i = true) (hv : effectiveValue i s = .ok v) :
    exec i s = .next (s.afterLda i.length (budgetCost i) v) := by
  rw [exec_lda_eq hA, load_next_iff]
  exact ⟨v, by rw [hv, liftValue_ok], (s.loaded_a_eq ..).symm⟩

theorem exec_ldx_of_value {i : Instr} {v : Byte} (hX : isLdx i = true) (hv : effectiveValue i s = .ok v) :
    exec i s = .next (s.afterLdx i.length (budgetCost i) v) := by
  rw [exec_ldx_eq hX, load_next_iff]
  exact ⟨v, by rw [hv, liftValue_ok], (s.loaded_x_eq ..).symm⟩

/-- Settles O38: the effective value is the same, and the three updates overwrite the same fields. -/
theorem inertStateHasNoInfluence : Obligations.InertStateHasNoInfluence := by
  intro i s t a sp g h
  rcases exec_next_cases h with ⟨hA, v, hv, rfl⟩ | ⟨hX, v, hv, rfl⟩ | ⟨op, rfl, hstrict, rfl⟩
  · rw [exec_lda_of_value hA ((effectiveValue_inert i s a sp g).trans hv)]
    simp [State.afterLda, Flags.afterLoad, hA]
  · rw [exec_ldx_of_value hX ((effectiveValue_inert i s a sp g).trans hv)]
    simp [State.afterLdx, Flags.afterLoad, hX, isLda_eq_false_of_isLdx hX]
  · rw [exec_unassigned_eq]
    simp [State.afterIdle, hstrict, isLda, isLdx]

/-! ## The frame -/

/-- Settles O35. -/
theorem instructionFrame : Obligations.InstructionFrame := by
  intro i s t h
  rcases exec_next_cases h with ⟨hA, v, -, rfl⟩ | ⟨hX, v, -, rfl⟩ | ⟨op, rfl, -, rfl⟩
  · simp [hA, Flags.afterLoad]
  · simp [hX, Flags.afterLoad]
  · simp

/-- Settles O36: `PC` moves by the length, in 16 bits (R14). -/
theorem pcAdvancesByTheLength : Obligations.PCAdvancesByTheLength := by
  intro i s t h
  rw [exec_pc h, BitVec.toNat_add, BitVec.toNat_ofNat, Nat.add_mod_mod]

/-! ## The flags -/

@[simp] theorem Flags.afterLoad_z (f : Flags) (v : Byte) : (f.afterLoad v).z = decide (v = 0#8) := rfl
@[simp] theorem Flags.afterLoad_n (f : Flags) (v : Byte) : (f.afterLoad v).n = decide (128 ≤ v.toNat) := rfl

/-- A byte of at least 128 is not 0 (R17). -/
theorem Flags.afterLoad_not_both (f : Flags) (v : Byte) : ((f.afterLoad v).z && (f.afterLoad v).n) = false := by
  rw [Flags.afterLoad_z, Flags.afterLoad_n, Bool.and_eq_false_iff, decide_eq_false_iff_not, decide_eq_false_iff_not]
  by_cases hv : v = 0#8
  · exact .inr (by simp [hv])
  · exact .inl hv

/-- Settles O5: both families leave the flags of the byte loaded, and the families exclude each other. -/
theorem loadFlagsFollowTheLoadedByte : Obligations.LoadFlagsFollowTheLoadedByte := by
  intro i s t h
  rcases exec_next_cases h with ⟨hA, v, -, rfl⟩ | ⟨hX, v, -, rfl⟩ | ⟨op, rfl, -, rfl⟩
  · refine ⟨fun _ => ⟨rfl, rfl, s.flags.afterLoad_not_both v⟩, fun hX => ?_⟩
    simp [isLda_eq_false_of_isLdx hX] at hA
  · refine ⟨fun hA => ?_, fun _ => ⟨rfl, rfl, s.flags.afterLoad_not_both v⟩⟩
    simp [isLda_eq_false_of_isLdx hX] at hA
  · simp [isLda, isLdx]

/-- Settles O3: `Z` is set for 0 alone, `N` from 128 up. -/
theorem setZNLaw : Obligations.SetZNLaw := by
  intro s v
  have hz : (s.setZN v).flags.z = decide (v.toNat = 0) := decide_eq_decide.2 BitVec.toNat_inj.symm
  have hn : (s.setZN v).flags.n = decide (128 ≤ v.toNat) := getLsbD_seven_eq v
  have hboth : ((s.setZN v).flags.z && (s.setZN v).flags.n) = false := by
    rw [State.setZN_flags, Flags.setZN_eq_afterLoad]
    exact s.flags.afterLoad_not_both v
  refine ⟨?zero, ?positive, ?negative, hboth, rfl, _, _, rfl⟩ <;>
    simp only [hz, hn, decide_eq_true_eq, decide_eq_false_iff_not]
  case zero => exact fun h => ⟨h, by omega⟩
  case positive => exact fun hlo hhi => ⟨by omega, by omega⟩
  case negative => exact fun h => ⟨by omega, h⟩

/-! ## The inert flags in a run -/

/-- Where the bytes at `PC` decode, the step of a run with a cycle left is that instruction (R64, R65). -/
theorem step_eq_exec {r : Int} {c : Nat} {bs rest : List Byte} {i : Instr} (hl : s.lifecycle = .running r c)
    (hr : 0 < r) (hb : s.BytesAt s.pc bs) (hd : decode bs = .ok (i, rest)) : step s = exec i s := by
  obtain ⟨n, hf⟩ := State.fetchInstr_of_decode hb hd
  rw [step_of_running hl, if_pos hr, State.runInstr, hf]

/-- Which bytes stand at an address is decided by the parameters and memory. -/
theorem State.BytesAt.congr {addr : Addr} {bs : List Byte} (h : s.BytesAt addr bs) (hc : t.cfg = s.cfg)
    (hm : t.mem = s.mem) : t.BytesAt addr bs := by
  induction bs generalizing addr with
  | nil => trivial
  | cons v vs ih =>
    obtain ⟨hlt, hv, hvs⟩ := h
    exact ⟨by rw [hc]; exact hlt, by rw [hm]; exact hv, ih hvs⟩

/-- The flags with other values in the five inert ones (R18). -/
def Flags.withInert (f : Flags) (c i d b v : Bool) : Flags := { f with c := c, i := i, d := d, b := b, v := v }

/-- An instruction writes `Z` and `N` and no other flag. -/
theorem exec_flags {i : Instr} (h : exec i s = .next t) : ∃ z n : Bool, t.flags = { s.flags with z := z, n := n } := by
  rcases exec_next_cases h with ⟨-, v, -, rfl⟩ | ⟨-, v, -, rfl⟩ | ⟨op, -, -, rfl⟩
  · exact ⟨_, _, State.afterLda_flags ..⟩
  · exact ⟨_, _, State.afterLdx_flags ..⟩
  · exact ⟨s.flags.z, s.flags.n, State.afterIdle_flags ..⟩

theorem step_flags_of_running {r : Int} {k : Nat} (hl : s.lifecycle = .running r k) (h : step s = .next t) :
    ∃ z n : Bool, t.flags = { s.flags with z := z, n := n } := by
  rcases step_next_cases h with ⟨_, _, _, _, -, -, -, -, he⟩ | ⟨_, c, -, -, rfl⟩ | ⟨hn, -⟩
  · exact exec_flags he
  · exact ⟨s.flags.z, s.flags.n, State.finishRun_flags ..⟩
  · exact absurd hl (hn r k)

/-- An instruction reads no inert flag: with other values in them it does the same and keeps those. -/
theorem exec_withInert {j : Instr} (c i d b v : Bool) (h : exec j s = .next t) :
    exec j { s with flags := s.flags.withInert c i d b v } =
      .next { t with flags := t.flags.withInert c i d b v } := by
  rcases exec_next_cases h with ⟨hA, w, hv, rfl⟩ | ⟨hX, w, hv, rfl⟩ | ⟨op, rfl, hstrict, rfl⟩
  · rw [exec_lda_of_value hA ((effectiveValue_inert j s s.a s.sp _).trans hv)]; rfl
  · rw [exec_ldx_of_value hX ((effectiveValue_inert j s s.a s.sp _).trans hv)]; rfl
  · rw [exec_unassigned_eq, if_neg (by simp [hstrict])]; rfl

theorem step_withInert_of_running {r : Int} {k : Nat} (c i d b v : Bool) (hl : s.lifecycle = .running r k)
    (h : step s = .next t) :
    step { s with flags := s.flags.withInert c i d b v } = .next { t with flags := t.flags.withInert c i d b v } := by
  rcases step_next_cases h with ⟨r', k', bs, j, hl', hr, hb, hd, he⟩ | ⟨r', k', hl', hr, rfl⟩ | ⟨hn, -⟩
  · have hb' := hb.congr (t := { s with flags := s.flags.withInert c i d b v }) rfl rfl
    exact Eq.trans (step_eq_exec hl' hr hb' hd) (exec_withInert c i d b v he)
  · exact Eq.trans (step_of_running hl') (if_neg (Int.not_lt.2 hr))
  · exact absurd hl (hn r k)

/-- Settles O4, from the flags a step of a run writes, those it reads, and the access to a single flag. -/
theorem inertFlagsAreStorageOnly : Obligations.InertFlagsAreStorageOnly := by
  intro s t remaining completed c i d b v hl h
  refine ⟨?_, step_withInert_of_running c i d b v hl h, fun f other bit => ?_⟩
  · obtain ⟨z, n, hf⟩ := step_flags_of_running hl h
    simp [hf]
  · exact ⟨Flags.get_set_same .., fun hne => Flags.get_set_other _ hne bit⟩

/-! ## The host -/

/-- A unit that is not running takes the next command off the list (R123; log 4). -/
theorem step_of_host_cons {op : HostOp} {rest : List HostOp} (hn : ∀ r c, s.lifecycle ≠ .running r c)
    (hh : s.host = op :: rest) : step s = State.perform op { s with host := rest } := by
  rw [step_of_not_running hn, State.hostStep, hh]

theorem State.Idle.not_running (hi : s.Idle) (r : Int) (c : Nat) : s.lifecycle ≠ .running r c := by
  rcases hi with hl | hl <;> simp [hl]

/-- Between runs every command is admitted (R125). -/
theorem State.Idle.hostRefusal_eq_none (hi : s.Idle) (op : HostOp) : hostRefusal s.lifecycle op = none := by
  rcases hi with hl | hl <;> rw [hl] <;> rfl

theorem step_of_idle {op : HostOp} {rest : List HostOp} (hi : s.Idle) (hh : s.host = op :: rest) :
    step s = State.performAdmitted op { s with host := rest } := by
  rw [step_of_host_cons hi.not_running hh, State.perform, hi.hostRefusal_eq_none op]

theorem steps_two_of_step {u : State} (h : step s = .next t) (h' : step t = .next u) : steps 2 s = .next u := by
  simp only [steps, h, h']

/-- Settles O54: the write is one step, the read of the flag it set the next. -/
theorem hostFlagAccess : Obligations.HostFlagAccess := by
  intro s f bit rest hi hh
  refine ⟨s.flags.set f bit, ?_, Flags.get_set_same .., fun other hne => Flags.get_set_other _ hne bit⟩
  have hwrite : step s = .next { s with flags := s.flags.set f bit, host := .readFlag f :: rest, answer := none } :=
    step_of_idle hi hh
  refine steps_two_of_step hwrite (Eq.trans (step_of_idle hi rfl) ?_)
  simp only [State.performAdmitted, Flags.get_set_same]

theorem step_of_uninitialized {op : HostOp} {rest : List HostOp} (hl : s.lifecycle = .uninitialized)
    (hh : s.host = op :: rest) :
    step s = if op.needsReset then .refused .uninitialized else State.performAdmitted op { s with host := rest } := by
  rw [step_of_host_cons (by simp [hl]) hh, State.perform, hl]
  cases op <;> rfl

/-- A host write of a register, a flag, `PC` or an existing byte completes, and leaves the lifecycle state and the commands
to come. -/
theorem performAdmitted_write {op : HostOp} (hneeds : op.needsReset = false) (hreset : op ≠ .reset)
    (hdestroy : op ≠ .destroy) (hexists : ∀ addr v, op = .writeMem addr v → addr < s.cfg.memSize) :
    ∃ t, State.performAdmitted op s = .next t ∧ t.lifecycle = s.lifecycle ∧ t.host = s.host := by
  cases op with
  | writeMem addr v =>
    rcases s.memWriteAt_cases addr v with ⟨-, hw⟩ | ⟨hge, -⟩
    · exact ⟨{ s with mem := Memory.write s.mem addr v, answer := none }, by rw [State.performAdmitted, hw], rfl, rfl⟩
    · exact absurd (hexists addr v rfl) (Nat.not_lt.2 hge)
  | writeReg r v => exact ⟨_, rfl, State.writeReg_lifecycle .., State.writeReg_host ..⟩
  | writePC v => exact ⟨_, rfl, rfl, rfl⟩
  | writeFlag f v => exact ⟨_, rfl, rfl, rfl⟩
  | reset => exact absurd rfl hreset
  | destroy => exact absurd rfl hdestroy
  | _ => simp [HostOp.needsReset] at hneeds

/-- Settles O55. -/
theorem beforeResetNothingRunsAndNothingIsRead : Obligations.BeforeResetNothingRunsAndNothingIsRead := by
  intro s op rest hl hh
  rw [step_of_uninitialized hl hh]
  refine ⟨fun hneeds => if_pos hneeds, fun hneeds hreset hdestroy hexists => ?_⟩
  obtain ⟨t, hstep, hlife, hhost⟩ :=
    performAdmitted_write (s := { s with host := rest }) hneeds hreset hdestroy hexists
  exact ⟨t, by rw [if_neg (by simp [hneeds]), hstep], hlife.trans hl, hhost⟩

/-- Settles O1: the table of R25, and a memory that lists nothing reads 0 everywhere. -/
theorem resetLeavesEverythingZero : Obligations.ResetLeavesEverythingZero := by
  intro cfg
  have hflags (f : Flag) : (State.resetWith cfg).flags.get f = false := by cases f <;> rfl
  exact ⟨rfl, rfl, rfl, rfl, rfl, hflags, Memory.read_nil, rfl, rfl⟩

end Sys2Proof.Machine
end

section
/-!
The memory as the machine and the host access it (20_memory.md): one byte read or written, the effective addresses, a
fetch that runs off the memory, and what holds where every 16-bit address exists (R31).
-/

namespace Sys2Proof.Machine

variable {s t : State}

/-! ## One byte -/

/-- Settles O6. -/
theorem memReadGivesTheByteOrNamesTheAddress : Obligations.MemReadGivesTheByteOrNamesTheAddress :=
  fun _ _ => ⟨State.memRead_of_lt, State.memRead_of_ge⟩

theorem State.memWriteAt_of_lt {addr : Nat} (h : addr < s.cfg.memSize) (v : Byte) :
    s.memWriteAt addr v = .ok { s with mem := Memory.write s.mem addr v } := if_pos h

theorem State.memWriteAt_of_ge {addr : Nat} (h : s.cfg.memSize ≤ addr) (v : Byte) :
    s.memWriteAt addr v = .error (.memOutOfRange addr) := if_neg (Nat.not_lt.2 h)

/-- Settles O7, from the laws of `Memory.write` on contents in canonical form. -/
theorem memWriteChangesOneByte : Obligations.MemWriteChangesOneByte := by
  intro s addr v hwf
  refine ⟨fun hlt => ⟨Memory.write s.mem addr v, State.memWriteAt_of_lt hlt v, ?canonical, ?same, ?others⟩,
    fun hge => State.memWriteAt_of_ge hge v⟩
  case canonical => exact Memory.wf_write s.mem addr v hwf
  case same => exact Memory.read_write_same s.mem addr v hwf
  case others => exact fun other hne => Memory.read_write_other s.mem hne v

theorem performAdmitted_readMem_of_ge {addr : Nat} (h : s.cfg.memSize ≤ addr) :
    State.performAdmitted (.readMem addr) s = .fault (.memOutOfRange addr) := by
  rw [State.performAdmitted, State.memReadAt_of_ge h]

theorem performAdmitted_writeMem_of_ge {addr : Nat} (h : s.cfg.memSize ≤ addr) (v : Byte) :
    State.performAdmitted (.writeMem addr v) s = .fault (.memOutOfRange addr) := by
  rw [State.performAdmitted, State.memWriteAt_of_ge h]

/-- Settles O51: between runs both commands are admitted, and each makes one checked access. -/
theorem hostAccessOutOfRangeFaults : Obligations.HostAccessOutOfRangeFaults := by
  intro s addr v rest hi hge hh
  have hge' : ({ s with host := rest } : State).cfg.memSize ≤ addr := hge
  rcases hh with hread | hwrite
  · exact (step_of_idle hi hread).trans (performAdmitted_readMem_of_ge hge')
  · exact (step_of_idle hi hwrite).trans (performAdmitted_writeMem_of_ge hge' v)

/-! ## Effective addresses -/

/-- The pointer of indexed-indirect stands at the address of zero-page,X (R79, R84). -/
theorem eaIzx_eq_map_memReadAt (b : Byte) (s : State) :
    eaIzx b s = (s.memReadAt ((b.toNat + s.x.toNat) % 256)).map zext16 :=
  congrArg (·.map zext16) (s.memRead_eq_memReadAt (eaZpx_toNat b s))

/-- The pointer of indirect-indexed stands at the operand (R85). -/
theorem eaIzy_eq_map_memReadAt (b : Byte) (s : State) :
    eaIzy b s = (s.memReadAt b.toNat).map (fun pointer => indySum s.cfg pointer s.y) := by
  rw [eaIzy, s.memRead_eq_memReadAt (zext16_toNat b)]

theorem eaIzx_of_lt {b : Byte} {p : Nat} (hp : p = (b.toNat + s.x.toNat) % 256) (h : p < s.cfg.memSize) :
    eaIzx b s = .ok (zext16 (Memory.read s.mem p)) := by
  rw [eaIzx_eq_map_memReadAt, ← hp, State.memReadAt_of_lt h]
  rfl

theorem eaIzx_of_ge {b : Byte} {p : Nat} (hp : p = (b.toNat + s.x.toNat) % 256) (h : s.cfg.memSize ≤ p) :
    eaIzx b s = .error (.memOutOfRange p) := by
  rw [eaIzx_eq_map_memReadAt, ← hp, State.memReadAt_of_ge h]
  rfl

theorem eaIzy_of_lt {b : Byte} (h : b.toNat < s.cfg.memSize) :
    eaIzy b s = .ok (indySum s.cfg (Memory.read s.mem b.toNat) s.y) := by
  rw [eaIzy_eq_map_memReadAt, State.memReadAt_of_lt h]
  rfl

theorem eaIzy_of_ge {b : Byte} (h : s.cfg.memSize ≤ b.toNat) : eaIzy b s = .error (.memOutOfRange b.toNat) := by
  rw [eaIzy_eq_map_memReadAt, State.memReadAt_of_ge h]
  rfl

theorem zext16_toNat_le (b : Byte) : (zext16 b).toNat ≤ 255 := by
  have := b.isLt
  rw [zext16_toNat]
  omega

/-- The ranges of the indirect-indexed sum: two bytes add to at most 510, at most 255 with the wrap, and the wrap
changes nothing below 256 (R40, R85). -/
theorem indySum_ranges (cfg : Config) (p y : Byte) :
    (indySum cfg p y).toNat ≤ 510 ∧ (cfg.indyWrap8 = true → (indySum cfg p y).toNat ≤ 255) ∧
      (p.toNat + y.toNat < 256 → (indySum cfg p y).toNat = p.toNat + y.toNat) := by
  have hp := p.isLt
  have hy := y.isLt
  rw [indySum_toNat]
  split
  next hwrap => exact ⟨by omega, fun _ => by omega, Nat.mod_eq_of_lt⟩
  next hwhole => exact ⟨by omega, fun hwrap => absurd hwrap hwhole, fun _ => rfl⟩

/-- Settles O41: the direct modes are arithmetic, and an indirect one has the address its pointer byte gives, where that
byte exists. -/
theorem effectiveAddresses : Obligations.EffectiveAddresses := by
  rintro s b w p sum hp rfl
  refine ⟨eaZp_toNat b, eaZpx_toNat b s, eaZpy_toNat b s, rfl, eaAbx_toNat w s, eaAby_toNat w s, ?izx, eaIzx_of_ge hp,
    ?izy, eaIzy_of_ge⟩
  case izx => exact fun h => ⟨_, eaIzx_of_lt hp h, zext16_toNat _, zext16_toNat_le _⟩
  case izy => exact fun h => ⟨_, eaIzy_of_lt h, indySum_toNat .., indySum_ranges ..⟩

/-! ## A fetch that runs off the memory -/

/-- Bytes are too few for an instruction when there are none, or an opcode byte without its operand, or one with the low
byte alone of its operand word (R49). -/
theorem decode_error_cases {bs : List Byte} {e : DecodeError} (h : decode bs = .error e) :
    bs = [] ∨ (∃ op sh, bs = [op] ∧ shapeOf op = some sh) ∨
      (∃ op make lo, bs = [op, lo] ∧ shapeOf op = some (.opW make)) := by
  cases bs with
  | nil => exact .inl rfl
  | cons op tl =>
    match hs : shapeOf op, tl with
    | none, tl => simp [decode_unassigned hs] at h
    | some sh, [] => exact .inr (.inl ⟨op, sh, rfl, hs⟩)
    | some (.opB make), b :: tl => simp [decode_opB hs] at h
    | some (.opW make), [lo] => exact .inr (.inr ⟨op, make, lo, rfl, hs⟩)
    | some (.opW make), lo :: hi :: tl => simp [decode_opW hs] at h

/-- The reads of a fetch go upwards, so the byte after those that exist is the one named (R42, R61). -/
theorem State.fetchInstr_of_decode_error {bs : List Byte} {e : DecodeError} (hb : s.BytesAt s.pc bs)
    (hd : decode bs = .error e) (hge : s.cfg.memSize ≤ (s.pc + BitVec.ofNat 16 bs.length).toNat) :
    s.fetchInstr = .error (.memOutOfRange (s.pc + BitVec.ofNat 16 bs.length).toNat) := by
  rcases decode_error_cases hd with rfl | ⟨op, sh, rfl, hs⟩ | ⟨op, make, lo, rfl, hs⟩
  · simp only [List.length_nil, BitVec.add_zero] at hge ⊢
    rw [State.fetchInstr, State.fetchByte_of_ge hge]
    rfl
  · obtain ⟨h0, rfl, -⟩ := hb
    have h1 : (s.advancePC 1).cfg.memSize ≤ (s.advancePC 1).pc.toNat := hge
    rw [State.fetchInstr, State.fetchByte_of_lt h0]
    cases sh with
    | opB make => simp only [Except.bind, hs, State.fetchByte_of_ge h1]; rfl
    | opW make => simp only [Except.bind, hs, State.fetchWord_of_ge_low h1]; rfl
  · obtain ⟨h0, rfl, h1, -, -⟩ := hb
    have hadd : (s.advancePC 1).pc + 1#16 = s.pc + 2#16 := BitVec.add_assoc ..
    have h1' : (s.advancePC 1).pc.toNat < (s.advancePC 1).cfg.memSize := h1
    have h2 : (s.advancePC 1).cfg.memSize ≤ ((s.advancePC 1).pc + 1#16).toNat := by rw [hadd]; exact hge
    rw [State.fetchInstr, State.fetchByte_of_lt h0]
    simp only [Except.bind, hs, State.fetchWord_of_ge_high h1' h2, hadd]
    rfl

/-- Settles O10: the step of a run stops where its fetch does. -/
theorem fetchOutOfRangeFaults : Obligations.FetchOutOfRangeFaults := by
  rintro s bs e ⟨r, c, hl, hr⟩ hb hd hge
  have haddr : (s.pc.toNat + bs.length) % 65536 = (s.pc + BitVec.ofNat 16 bs.length).toNat := by
    rw [BitVec.toNat_add, BitVec.toNat_ofNat, Nat.add_mod_mod]
  rw [haddr] at hge ⊢
  rw [step_of_running hl, if_pos hr, State.runInstr, State.fetchInstr_of_decode_error hb hd hge]

/-! ## With all 65536 addresses -/

/-- An instruction stops only at an address of at most 16 bits that does not exist, or in strict mode (R31, R55). -/
theorem exec_completes (hcfg : NeverStops s.cfg) (i : Instr) : ∃ t, exec i s = .next t := by
  obtain ⟨hsize, hstrict⟩ := hcfg
  obtain ⟨hrefused, hfault⟩ := instructionsStopOnlyAsNamed i s
  cases he : exec i s with
  | next t => exact ⟨t, rfl⟩
  | refused r => exact absurd he (hrefused r)
  | fault f =>
    rcases hfault f he with ⟨addr, -, hge, hlt, -⟩ | ⟨op, -, hs, -⟩
    · omega
    · simp [hstrict] at hs

/-- From every address as many bytes can be read as one asks for, `mod 65536`. -/
theorem State.exists_bytesAt (hsize : 65536 ≤ s.cfg.memSize) (n : Nat) (addr : Addr) :
    ∃ bs, s.BytesAt addr bs ∧ bs.length = n := by
  induction n generalizing addr with
  | zero => exact ⟨[], trivial, rfl⟩
  | succ n ih =>
    obtain ⟨bs, hb, rfl⟩ := ih (addr + 1#16)
    exact ⟨_ :: bs, ⟨addr.isLt.trans_le hsize, rfl, hb⟩, rfl⟩

/-- No instruction is longer than three bytes (R51). -/
theorem exists_decode_of_three_le {bs : List Byte} (h : 3 ≤ bs.length) : ∃ i rest, decode bs = .ok (i, rest) := by
  cases hd : decode bs with
  | ok p => exact ⟨p.1, p.2, rfl⟩
  | error e =>
    rcases decode_error_cases hd with rfl | ⟨op, sh, rfl, -⟩ | ⟨op, make, lo, rfl, -⟩ <;> simp at h

/-- A turn of the run loop executes some instruction, and completes it. -/
theorem step_completes (hcfg : NeverStops s.cfg) {r : Int} {c : Nat} (hl : s.lifecycle = .running r c) (hr : 0 < r) :
    ∃ i t, exec i s = .next t ∧ step s = .next t := by
  obtain ⟨bs, hb, hlen⟩ := State.exists_bytesAt hcfg.1 3 s.pc
  obtain ⟨i, rest, hd⟩ := exists_decode_of_three_le hlen.ge
  obtain ⟨t, he⟩ := exec_completes hcfg i
  exact ⟨i, t, he, (step_eq_exec hl hr hb hd).trans he⟩

/-- Settles O40. -/
theorem fullMemoryNeverStops : Obligations.FullMemoryNeverStops := by
  refine fun s hcfg => ⟨exec_completes hcfg, ?_⟩
  rintro ⟨r, c, hl, hr⟩
  obtain ⟨i, t, -, hstep⟩ := step_completes hcfg hl hr
  exact ⟨t, hstep⟩

/-! ## A run with all 65536 addresses -/

/-- A run with `r` cycles left and `c` counted ends by its budget in `t`, after `k` steps over `fetched` bytes: the
memory is as it was, and the total and the bytes are within the bounds of R71 and R45, stated for any point of a run.
The bound on the bytes is cut at 0 because an overshoot leaves `r` as low as -5. -/
structure State.RunEnds (s : State) (r : Int) (c : Nat) (t : State) (k total fetched : Nat) : Prop where
  steps_eq : steps k s = .next t
  lifecycle : t.lifecycle = .haltedByBudget
  answer : t.answer = some (.total total)
  mem : t.mem = s.mem
  pc : t.pc = s.pc + BitVec.ofNat 16 fetched
  steps_le : k ≤ r.toNat + 1
  total_le : (total : Int) ≤ c + r + 5
  fetched_pos : 0 < r → 1 ≤ fetched
  fetched_le : fetched ≤ (r + 2).toNat

/-- Where the loop condition fails, the run ends at once (R68). -/
theorem State.runEnds_finishRun {r : Int} {c : Nat} (hl : s.lifecycle = .running r c) (hr : r ≤ 0) (hlow : -5 ≤ r) :
    s.RunEnds r c (s.finishRun c) 1 c 0 where
  steps_eq := by simp [steps, step_of_running hl, Int.not_lt.2 hr]
  lifecycle := State.finishRun_lifecycle ..
  answer := State.finishRun_answer ..
  mem := State.finishRun_mem ..
  pc := (BitVec.add_zero _).symm
  steps_le := by omega
  total_le := by omega
  fetched_pos := by omega
  fetched_le := Nat.zero_le _

/-- An instruction has one to three bytes, and takes at least one cycle for each (R51, R138). -/
theorem length_bounds (i : Instr) : 1 ≤ i.length ∧ i.length ≤ 3 ∧ i.length ≤ budgetCost i := by
  cases i <;> simp [Instr.length, budgetCost]

theorem countedCost_le_budgetCost (i : Instr) : countedCost i ≤ budgetCost i := by
  rw [budgetCost_eq]
  exact Nat.le_add_right ..

/-- A turn of the loop before a run that ends (R65, R67). -/
theorem State.RunEnds.cons {r : Int} {c : Nat} {i : Instr} {u : State} {k total fetched : Nat} (hr : 0 < r)
    (he : exec i s = .next t) (hstep : step s = .next t)
    (h : t.RunEnds (r - budgetCost i) (c + countedCost i) u k total fetched) :
    s.RunEnds r c u (k + 1) total (i.length + fetched) := by
  obtain ⟨hlen, hlen3, hlenCost⟩ := length_bounds i
  obtain ⟨hsteps, hlife, hans, hmem, hpc, hk, htotal, -, hfetched⟩ := h
  have hcounted := countedCost_le_budgetCost i
  exact {
    steps_eq := by simp only [steps, hstep, hsteps]
    lifecycle := hlife
    answer := hans
    mem := hmem.trans (exec_mem he)
    pc := by rw [hpc, exec_pc he, BitVec.add_assoc, ← BitVec.ofNat_add]
    steps_le := by omega
    total_le := by omega
    fetched_pos := by omega
    fetched_le := by omega }

/-- Every turn of the loop takes at least one cycle, so the loop condition fails in the end (R68). -/
theorem State.exists_runEnds (hcfg : NeverStops s.cfg) {r : Int} {c : Nat} (hl : s.lifecycle = .running r c)
    (hlow : -5 ≤ r) : ∃ t k total fetched, s.RunEnds r c t k total fetched := by
  induction hn : r.toNat using Nat.strong_induction_on generalizing s r c with
  | _ n ih =>
    by_cases hr : 0 < r
    · obtain ⟨i, t, he, hstep⟩ := step_completes hcfg hl hr
      have hlt : t.lifecycle = .running (r - budgetCost i) (c + countedCost i) := by rw [exec_lifecycle he, hl]; rfl
      obtain ⟨hcost, hcost6⟩ := budgetCost_bounds i
      obtain ⟨u, k, total, fetched, hu⟩ :=
        ih _ (by omega) (by rw [exec_cfg he]; exact hcfg) hlt (by omega) rfl
      exact ⟨u, k + 1, total, i.length + fetched, hu.cons hr he hstep⟩
    · exact ⟨_, _, _, _, State.runEnds_finishRun hl (Int.not_lt.1 hr) hlow⟩

/-- Settles O48: the bounds at the start of a run, where nothing is counted yet. -/
theorem fullMemoryRunCompletes : Obligations.FullMemoryRunCompletes := by
  intro s b hl hcfg hb
  obtain ⟨t, k, total, fetched, h⟩ := State.exists_runEnds hcfg hl (by omega)
  have htotal := h.total_le
  have hfetched := h.fetched_le
  exact ⟨k, t, total, fetched, h.steps_le, h.steps_eq, h.lifecycle, h.answer, by omega, fun addr => by rw [h.mem],
    h.pc, h.fetched_pos hb, by omega⟩

end Sys2Proof.Machine
end

section
/-!
The decoder and the encoder are inverse to each other, and the opcode byte alone tells what decoding takes
(30_encoding.md R48 to R56).
-/

namespace Sys2Proof

/-! ## The encoder against the opcode map -/

/-- R51: the Length column of R52 is the number of bytes encoded. -/
theorem encode_length (i : Instr) : (encode i).length = i.length := by
  cases i <;> rfl

/-- The encoder undoes every row of the map that takes an operand byte (R49, R52). -/
theorem encode_of_shapeOf_opB {op : Byte} {make : Byte → Instr} (h : shapeOf op = some (.opB make)) (b : Byte) :
    encode (make b) = [op, b] := by
  have hrow := shapeOf_mem h
  simp only [opcodeMap, List.mem_cons, Prod.mk.injEq, Shape.opB.injEq, reduceCtorEq, and_false, or_false, false_or,
    List.not_mem_nil] at hrow
  rcases hrow with ⟨rfl, rfl⟩ | ⟨rfl, rfl⟩ | ⟨rfl, rfl⟩ | ⟨rfl, rfl⟩ | ⟨rfl, rfl⟩ | ⟨rfl, rfl⟩ |
    ⟨rfl, rfl⟩ | ⟨rfl, rfl⟩ <;> rfl

/-- The encoder undoes every row of the map that takes an operand word (R49, R52). -/
theorem encode_of_shapeOf_opW {op : Byte} {make : Addr → Instr} (h : shapeOf op = some (.opW make)) (w : Addr) :
    encode (make w) = [op, lowByte w, highByte w] := by
  have hrow := shapeOf_mem h
  simp only [opcodeMap, List.mem_cons, Prod.mk.injEq, Shape.opW.injEq, reduceCtorEq, and_false, or_false, false_or,
    List.not_mem_nil] at hrow
  rcases hrow with ⟨rfl, rfl⟩ | ⟨rfl, rfl⟩ | ⟨rfl, rfl⟩ | ⟨rfl, rfl⟩ | ⟨rfl, rfl⟩ <;> rfl

/-- Only an unassigned instruction can be ill formed, and it has no operand (R50, R90). -/
theorem Instr.wf_of_encode_eq {i : Instr} {op b : Byte} {operands : List Byte} (h : encode i = op :: b :: operands) :
    i.wf = true := by
  cases i with
  | unassigned op' => simp [encode] at h
  | _ => rfl

/-- Decoding puts the bytes of an encoded operand word together again (R50). -/
theorem decode_opW_low_high {op : Byte} {make : Addr → Instr} (h : shapeOf op = some (.opW make)) (w : Addr)
    (rest : List Byte) : decode (op :: lowByte w :: highByte w :: rest) = .ok (make w, rest) := by
  rw [decode_opW h, wordOfBytes_low_high]

/-! ## Decoding and encoding are inverse to each other -/

/-- Settles O12: the opcode byte that each instruction encodes to is looked up as its own row of the map. -/
theorem decodeEncodeRoundTrip : Obligations.DecodeEncodeRoundTrip := by
  intro i rest hwf
  cases i with
  | unassigned op => exact decode_unassigned (shapeOf_of_isUnassigned hwf) rest
  | ldaImm b | ldaZp b | ldaZpx b | ldaIzx b | ldaIzy b | ldxImm b | ldxZp b | ldxZpy b => exact decode_opB rfl b rest
  | ldaAbs w | ldaAbx w | ldaAby w | ldxAbs w | ldxAby w => exact decode_opW_low_high rfl w rest

/-- Settles O13: the encoder undoes the row of the map that decoding took. -/
theorem decodedInstructionsReEncode : Obligations.DecodedInstructionsReEncode := by
  intro bs rest i hd
  rcases decode_ok_cases hd with ⟨op, rfl, hs, rfl⟩ | ⟨op, make, b, rfl, hs, rfl⟩ | ⟨op, make, lo, hi, rfl, hs, rfl⟩
  · exact ⟨isUnassigned_of_shapeOf hs, rfl, rfl⟩
  · have he := encode_of_shapeOf_opB hs b
    exact ⟨Instr.wf_of_encode_eq he, by simp [he], encode_length _⟩
  · have he := encode_of_shapeOf_opW hs (wordOfBytes lo hi)
    exact ⟨Instr.wf_of_encode_eq he, by simp [he], encode_length _⟩

/-- Settles O11: the words are the bytes of well-formed instructions. -/
theorem opcodeMapSpotWords : Obligations.OpcodeMapSpotWords := by
  have word := decodeEncodeRoundTrip
  exact ⟨word (.ldaImm 0x69#8) [] rfl, word (.ldaZp 0x48#8) [] rfl, word (.ldaZpx 0x60#8) [] rfl,
    word (.ldaAbs 0x1234#16) [] rfl, word (.ldaAbx 0x1234#16) [] rfl, word (.ldaAby 0x1234#16) [] rfl,
    word (.ldaIzx 0x20#8) [] rfl, word (.ldaIzy 0x18#8) [] rfl, word (.ldxImm 0xE8#8) [] rfl,
    word (.ldxZp 0x10#8) [] rfl, word (.ldxZpy 0xF0#8) [] rfl, word (.ldxAbs 0x0007#16) [] rfl,
    word (.ldxAby 0x00F0#16) [] rfl, word (.unassigned 0x00#8) [0xA9#8] rfl, word (.unassigned 0xA0#8) [0x05#8] rfl,
    word (.unassigned 0xEA#8) [] rfl⟩

/-! ## What the opcode byte tells -/

theorem opcodeLength_of_none {op : Byte} (h : shapeOf op = none) : opcodeLength op = 1 := by
  simp [opcodeLength, h]

theorem opcodeLength_of_opB {op : Byte} {make : Byte → Instr} (h : shapeOf op = some (.opB make)) :
    opcodeLength op = 2 := by
  simp [opcodeLength, h]

theorem opcodeLength_of_opW {op : Byte} {make : Addr → Instr} (h : shapeOf op = some (.opW make)) :
    opcodeLength op = 3 := by
  simp [opcodeLength, h]

/-- R51: 1 for a byte the map lacks, 2 or 3 for one it has. -/
theorem opcodeLength_cases (op : Byte) :
    (isUnassigned op = true → opcodeLength op = 1) ∧
      (isUnassigned op = false → opcodeLength op = 2 ∨ opcodeLength op = 3) := by
  rw [isUnassigned_eq_isNone]
  match hs : shapeOf op with
  | none => simp [opcodeLength_of_none hs]
  | some (.opB make) => simp [opcodeLength_of_opB hs]
  | some (.opW make) => simp [opcodeLength_of_opW hs]

/-- With as many bytes as its opcode byte tells, an instruction decodes and all of them are taken (R51). -/
theorem exists_decode_of_opcodeLength {op : Byte} {operands : List Byte} (h : operands.length + 1 = opcodeLength op)
    (rest : List Byte) : ∃ i, decode (op :: operands ++ rest) = .ok (i, rest) := by
  match hs : shapeOf op with
  | none =>
    rw [opcodeLength_of_none hs] at h
    obtain rfl := List.length_eq_zero_iff.1 (Nat.succ.inj h)
    exact ⟨_, decode_unassigned hs rest⟩
  | some (.opB make) =>
    rw [opcodeLength_of_opB hs] at h
    obtain ⟨b, rfl⟩ := List.length_eq_one_iff.1 (Nat.succ.inj h)
    exact ⟨_, decode_opB hs b rest⟩
  | some (.opW make) =>
    rw [opcodeLength_of_opW hs] at h
    obtain ⟨lo, hi, rfl⟩ := List.length_eq_two.1 (Nat.succ.inj h)
    exact ⟨_, decode_opW hs lo hi rest⟩

/-- Settles O14: the bytes taken are those the instruction encodes to, so they are as many as its length. -/
theorem opcodeByteAloneGivesTheLength : Obligations.OpcodeByteAloneGivesTheLength := by
  intro op
  obtain ⟨hun, has⟩ := opcodeLength_cases op
  refine ⟨hun, has, fun operands rest hlen => ?_⟩
  obtain ⟨i, hd⟩ := exists_decode_of_opcodeLength hlen rest
  obtain ⟨-, hbytes, hl⟩ := decodedInstructionsReEncode _ _ _ hd
  have he : op :: operands = encode i := List.append_cancel_right hbytes
  exact ⟨i, hd, by rw [← hl, ← he, List.length_cons, hlen]⟩

/-- What an unassigned byte of R105 decodes to, whatever follows it. -/
theorem decode_eq_unassigned {op : Byte} {tl rest : List Byte} {i : Instr} (h : isUnassigned op = true)
    (hd : decode (op :: tl) = .ok (i, rest)) : i = .unassigned op := by
  rw [decode_unassigned (shapeOf_of_isUnassigned h)] at hd
  cases hd
  rfl

/-- An instruction that an assigned byte begins is not the unassigned one, whose byte would be that same byte. -/
theorem isAssigned_of_decode {op : Byte} {tl rest : List Byte} {i : Instr} (h : isUnassigned op = false)
    (hd : decode (op :: tl) = .ok (i, rest)) : Machine.IsAssigned i := by
  rintro op' rfl
  obtain ⟨hwf, hbytes, -⟩ := decodedInstructionsReEncode _ _ _ hd
  obtain rfl : op = op' := List.head_eq_of_cons_eq hbytes
  exact absurd (h.symm.trans hwf) (by decide)

/-- Settles O15: three bytes are enough for any instruction. -/
theorem decodeIsTotalOnOpcodeBytes : Obligations.DecodeIsTotalOnOpcodeBytes := by
  intro op b1 b2 rest
  have hlen : 3 ≤ (op :: b1 :: b2 :: rest).length := Nat.le_add_left ..
  obtain ⟨i, tail, hd⟩ := Machine.exists_decode_of_three_le hlen
  obtain ⟨hwf, -, -⟩ := decodedInstructionsReEncode _ _ _ hd
  exact ⟨i, tail, hd, hwf, fun h => decode_eq_unassigned h hd, fun h => isAssigned_of_decode h hd⟩

end Sys2Proof
end

section
/-!
Fetching and the run loop (40_fetch_execute_loop.md R60 to R71): the fetch primitives, one turn of the loop, how a run starts
and ends, and what every run returns.
-/

namespace Sys2Proof.Machine

variable {s t : State}

/-! ## The fetch primitives -/

/-- Settles O8. -/
theorem fetchByteReadsAndAdvances : Obligations.FetchByteReadsAndAdvances :=
  fun _ => ⟨State.fetchByte_of_lt, State.fetchByte_of_ge⟩

/-- Settles O9: the high byte is at the next address of 16 bits (R61). -/
theorem fetchWordIsLittleEndian : Obligations.FetchWordIsLittleEndian := by
  intro s
  have hnext : (s.pc + 1#16).toNat = (s.pc.toNat + 1) % 65536 := BitVec.toNat_add ..
  rw [← hnext]
  exact ⟨fun hlo hhi => ⟨_, State.fetchWord_of_lt hlo hhi, wordOfBytes_toNat ..⟩, State.fetchWord_of_ge_low,
    State.fetchWord_of_ge_high⟩

/-! ## A turn of the loop -/

/-- Settles O16. -/
theorem stepRunsTheDecodedInstruction : Obligations.StepRunsTheDecodedInstruction := by
  rintro s bs rest i ⟨r, c, hl, hr⟩ hb hd
  exact step_eq_exec hl hr hb hd

/-- Settles O37. -/
theorem cyclesFollowTheTimingTable : Obligations.CyclesFollowTheTimingTable := by
  intro i s t r c he hl
  rw [exec_lifecycle he, hl]
  rfl

theorem isLda_or_isLdx_of_isAssigned {i : Instr} (h : IsAssigned i) : isLda i = true ∨ isLdx i = true :=
  (isLda_or_isLdx_or_unassigned i).resolve_right fun ⟨op, hop⟩ => h op hop

/-! ## The start and the end of a run -/

/-- Settles O43. -/
theorem runStartsWithFreshCounters : Obligations.RunStartsWithFreshCounters :=
  fun _ _ _ hi hh => step_of_idle hi hh

/-- Settles O44. -/
theorem runEndReturnsCompleted : Obligations.RunEndReturnsCompleted :=
  fun _ _ _ hl hr => (step_of_running hl).trans (if_neg (Int.not_lt.2 hr))

/-- Settles O45: the run starts, and its loop condition fails at once. -/
theorem zeroOrNegativeBudgetReturnsZero : Obligations.ZeroOrNegativeBudgetReturnsZero := by
  intro s b rest hi hh hb
  exact steps_two_of_step (runStartsWithFreshCounters s b rest hi hh) (runEndReturnsCompleted _ b 0 rfl hb)

/-- Settles O46: the turn is the whole instruction, and a budget of 1 leaves no cycle for another. -/
theorem noInstructionIsTruncated : Obligations.NoInstructionIsTruncated := by
  intro s t bs rest i r c hl hr hb hd hi he
  have hstep : step s = .next t := (step_eq_exec hl hr hb hd).trans he
  have hlife := cyclesFollowTheTimingTable i s t r c he hl
  rw [countedCost_eq_budgetCost (isLda_or_isLdx_of_isAssigned hi)] at hlife
  obtain ⟨hcost, hcost6⟩ := budgetCost_bounds i
  refine ⟨hstep, hlife, by omega, ?_⟩
  rintro rfl rfl
  rw [Nat.zero_add] at hlife
  exact steps_two_of_step hstep (runEndReturnsCompleted t _ _ hlife (by omega))

/-! ## Every run -/

/-- The faults a unit with these parameters can end a run with: an address that does not exist (D4), or, in strict mode,
an unassigned opcode (D6). -/
def Fault.CanEndRun (f : Fault) (cfg : Config) : Prop :=
  (∃ addr : Nat, f = .memOutOfRange addr ∧ cfg.memSize ≤ addr) ∨
    (cfg.strictOpcodes = true ∧ ∃ (op : Byte) (addr : Addr) (left : State), f = .illegalOpcode op addr left)

theorem exec_fault_canEndRun {i : Instr} {f : Fault} (h : exec i s = .fault f) : f.CanEndRun s.cfg := by
  rcases (instructionsStopOnlyAsNamed i s).2 f h with ⟨addr, hf, hge, -⟩ | ⟨op, -, hs, hf⟩
  · exact .inl ⟨addr, hf, hge⟩
  · exact .inr ⟨hs, op, _, _, hf⟩

/-- A turn of the loop executes the instruction at `PC`, or stops under a named fault (R64). -/
theorem step_cases_of_pos {r : Int} {c : Nat} (hl : s.lifecycle = .running r c) (hr : 0 < r) :
    (∃ i t, s.instrAtPC = some i ∧ exec i s = .next t ∧ step s = .next t) ∨
      ∃ f, step s = .fault f ∧ f.CanEndRun s.cfg := by
  cases hf : s.fetchInstr with
  | error f =>
    refine .inr ⟨f, ?_, .inl (State.fetchInstr_error_cases hf)⟩
    rw [step_of_running hl, if_pos hr, State.runInstr, hf]
  | ok p =>
    obtain ⟨bs, hb, hd, -⟩ := State.fetchInstr_ok_cases hf
    have hstep := step_eq_exec hl hr hb hd
    cases he : exec p.1 s with
    | next t => exact .inl ⟨p.1, t, State.instrAtPC_of_decode hl hr hb hd, he, hstep.trans he⟩
    | fault f => exact .inr ⟨f, hstep.trans he, exec_fault_canEndRun he⟩
    | refused rf => exact absurd he (exec_not_refused p.1 s rf)

theorem steps_one (s : State) : steps 1 s = step s := by
  unfold steps
  cases step s <;> rfl

theorem steps_succ (h : step s = .next t) (k : Nat) : steps (k + 1) s = steps k t := by
  simp only [steps, h]

/-- What an instruction takes from the budget is its share of `K + U` (R71). -/
theorem handlerCycles_add_idleCycles_cons (i : Instr) (is : List Instr) :
    handlerCycles (i :: is) + idleCycles (i :: is) = budgetCost i + (handlerCycles is + idleCycles is) := by
  rw [handlerCycles_cons, idleCycles_cons, budgetCost_eq]
  omega

/-- A run with `r` cycles left and `c` counted ends by its budget in `t` after `k` steps, the last of which ends it (R68);
the bounds on `K + U` are those of R71 for any point of a run, the upper one cut at 0 because `r` may be negative. -/
structure State.EndsByBudget (s : State) (r : Int) (c k : Nat) (t : State) : Prop where
  steps_eq : steps k s = .next t
  lifecycle : t.lifecycle = .haltedByBudget
  answer : t.answer = some (.total (c + handlerCycles (executed k s)))
  length_executed : (executed k s).length + 1 = k
  executed_eq_nil : r ≤ 0 → executed k s = []
  le_cycles : r ≤ handlerCycles (executed k s) + idleCycles (executed k s)
  cycles_le : handlerCycles (executed k s) + idleCycles (executed k s) ≤ (r + 5).toNat

/-- Where the loop condition fails, the run ends at once and executes nothing more. -/
theorem State.endsByBudget_finishRun {r : Int} {c : Nat} (hl : s.lifecycle = .running r c) (hr : r ≤ 0) :
    s.EndsByBudget r c 1 (s.finishRun c) := by
  have hstep : step s = .next (s.finishRun c) := runEndReturnsCompleted s r c hl hr
  have hnil : executed 1 s = [] := by rw [executed_succ hstep, State.instrAtPC_of_le hl hr]; rfl
  exact {
    steps_eq := (steps_one s).trans hstep
    lifecycle := State.finishRun_lifecycle ..
    answer := by rw [hnil]; exact State.finishRun_answer ..
    length_executed := by rw [hnil]; rfl
    executed_eq_nil := fun _ => hnil
    le_cycles := by rw [hnil]; exact hr
    cycles_le := by rw [hnil]; exact Nat.zero_le _ }

/-- A turn of the loop before a run that ends: it takes at most six cycles and begins with at least one, so the rest of the
run begins with at least five below zero (R69). -/
theorem State.EndsByBudget.cons {r : Int} {c k : Nat} {i : Instr} {u : State} (hr : 0 < r)
    (hi : s.instrAtPC = some i) (hstep : step s = .next t)
    (h : t.EndsByBudget (r - budgetCost i) (c + countedCost i) k u) : s.EndsByBudget r c (k + 1) u := by
  have hex : executed (k + 1) s = i :: executed k t := by rw [executed_succ hstep, hi]; rfl
  have hcost6 := (budgetCost_bounds i).2
  have hcycles := handlerCycles_add_idleCycles_cons i (executed k t)
  obtain ⟨hsteps, hlife, hans, hlen, -, hlow, hhigh⟩ := h
  exact {
    steps_eq := (steps_succ hstep k).trans hsteps
    lifecycle := hlife
    answer := by rw [hans, hex, handlerCycles_cons, Nat.add_assoc]
    length_executed := by rw [hex, List.length_cons, hlen]
    executed_eq_nil := by omega
    le_cycles := by rw [hex]; omega
    cycles_le := by rw [hex]; omega }

/-- Every turn of the loop takes at least one cycle, so a run that no fault stops has its loop condition fail in the end
(R68). -/
theorem State.exists_endsByBudget_or_fault {r : Int} {c : Nat} (hl : s.lifecycle = .running r c) :
    ∃ k, k ≤ r.toNat + 1 ∧
      ((∃ t, s.EndsByBudget r c k t) ∨ ∃ f, steps k s = .fault f ∧ f.CanEndRun s.cfg) := by
  induction hn : r.toNat using Nat.strong_induction_on generalizing s r c with
  | _ n ih =>
    by_cases hr : 0 < r
    · rcases step_cases_of_pos hl hr with ⟨i, t, hi, he, hstep⟩ | ⟨f, hstep, hf⟩
      · have hcost := (budgetCost_bounds i).1
        obtain ⟨k, hk, hrest⟩ := ih _ (by omega) (cyclesFollowTheTimingTable i s t r c he hl) rfl
        refine ⟨k + 1, by omega, ?_⟩
        rcases hrest with ⟨u, hu⟩ | ⟨f, hsteps, hf⟩
        · exact .inl ⟨u, hu.cons hr hi hstep⟩
        · exact .inr ⟨f, (steps_succ hstep k).trans hsteps, exec_cfg he ▸ hf⟩
      · exact ⟨1, Nat.le_add_left .., .inr ⟨f, (steps_one s).trans hstep, hf⟩⟩
    · exact ⟨1, Nat.le_add_left .., .inl ⟨_, State.endsByBudget_finishRun hl (Int.not_lt.1 hr)⟩⟩

/-- Settles O47: the ends of a run at its start, where nothing is counted yet. -/
theorem everyRunEnds : Obligations.EveryRunEnds := by
  intro s b hl
  obtain ⟨k, hk, ⟨t, h⟩ | hfault⟩ := State.exists_endsByBudget_or_fault hl
  · have hlow := h.le_cycles
    have hhigh := h.cycles_le
    exact ⟨k, hk, .inl ⟨t, _, _, h.steps_eq, h.lifecycle, rfl, rfl, by rw [h.answer, Nat.zero_add], h.length_executed,
      h.executed_eq_nil, fun hb => ⟨hlow, by omega⟩⟩⟩
  · exact ⟨k, hk, .inr hfault⟩

end Sys2Proof.Machine
end

section
/-!
What influences an indirect effective address (41_addressing_modes.md R84, R85): the one pointer byte it reads.
-/

namespace Sys2Proof.Machine

/-- A read at an address is decided, beside the parameters, by the contents at that address alone. -/
theorem State.memReadAt_with_mem {s : State} {m : Memory} {addr : Nat}
    (h : Memory.read m addr = Memory.read s.mem addr) :
    ({ s with mem := m } : State).memReadAt addr = s.memReadAt addr := by
  simp only [State.memReadAt, h]

/-- Settles O42: each indirect mode is a function of one read, at its pointer's address. -/
theorem indirectModesReadOnePointerByte : Obligations.IndirectModesReadOnePointerByte := by
  intro s b m
  refine ⟨fun h => ?izx, fun h => ?izy⟩
  case izx => rw [eaIzx_eq_map_memReadAt, eaIzx_eq_map_memReadAt, State.memReadAt_with_mem h]
  case izy => rw [eaIzy_eq_map_memReadAt, eaIzy_eq_map_memReadAt, State.memReadAt_with_mem h]

end Sys2Proof.Machine
end

section
/-!
LDA (42_lda.md): the contract all eight forms share, and the byte that each addressing mode loads.
-/

namespace Sys2Proof.Machine

variable {s : State}

/-! ## The contract -/

/-- A load without an effective value changes nothing: it stops with the address that does not exist (R35, R114). -/
theorem exec_load_of_error {i : Instr} {addr : Nat} (hi : isLda i = true ∨ isLdx i = true)
    (hv : effectiveValue i s = .error addr) : exec i s = .fault (.memOutOfRange addr) :=
  (exec_load_fault_iff hi).2 ⟨addr, hv, rfl⟩

/-- The old value of `A` is overwritten without being read (R90). -/
theorem exec_lda_with_a {i : Instr} (hA : isLda i = true) (s : State) (old : Byte) :
    exec i { s with a := old } = exec i s := by
  have hinert : effectiveValue i { s with a := old } = effectiveValue i s :=
    effectiveValue_inert i s old s.sp s.flags
  cases hv : effectiveValue i s with
  | ok v => rw [exec_lda_of_value hA hv, exec_lda_of_value hA (hinert.trans hv)]; rfl
  | error addr => rw [exec_load_of_error (.inl hA) hv, exec_load_of_error (.inl hA) (hinert.trans hv)]

/-- Settles O33: a form either has its byte or names an address that does not exist. -/
theorem everyLdaFollowsTheContract : Obligations.EveryLdaFollowsTheContract := fun _ s hA =>
  ⟨fun _ hv => exec_lda_of_value hA hv,
    fun _ hv => ⟨(effectiveValue_error (.inl hA) hv).1, exec_load_of_error (.inl hA) hv⟩,
    exec_lda_with_a hA s⟩

/-- Settles O17: the operand byte is the effective value (R77). -/
theorem ldaImmediate : Obligations.LdaImmediate := fun _ _ => ⟨rfl, exec_lda_of_value rfl rfl⟩

/-! ## Modes that read one byte -/

/-- A load of one read completes or faults as the read does. -/
theorem load_memReadAt (target : Reg8) (len cost ea : Nat) (s : State) :
    (ea < s.cfg.memSize →
      load target len cost (s.memReadAt ea) s = .next (s.loaded target len cost (Memory.read s.mem ea))) ∧
    (s.cfg.memSize ≤ ea → load target len cost (s.memReadAt ea) s = .fault (.memOutOfRange ea)) :=
  ⟨fun h => by rw [State.memReadAt_of_lt h, load], fun h => by rw [State.memReadAt_of_ge h, load]⟩

/-- A form whose effective value is one read completes with that byte, or faults with its address. -/
theorem exec_lda_of_read {i : Instr} {ea : Nat} (hA : isLda i = true)
    (hv : liftValue (effectiveValue i s) = s.memReadAt ea) :
    (ea < s.cfg.memSize → exec i s = .next (s.afterLda i.length (budgetCost i) (Memory.read s.mem ea))) ∧
    (s.cfg.memSize ≤ ea → exec i s = .fault (.memOutOfRange ea)) := by
  rw [exec_lda_eq hA, hv, ← State.loaded_a_eq]
  exact load_memReadAt ..

/-- Settles O18: the address is the operand byte (R78). -/
theorem ldaZeroPage : Obligations.LdaZeroPage := fun b s => exec_lda_of_read rfl (liftValue_ite s b.toNat)

/-- Settles O19: the address wraps in the zero page (R79). -/
theorem ldaZeroPageX : Obligations.LdaZeroPageX := by
  rintro b s ea rfl
  exact exec_lda_of_read rfl (liftValue_ite s _)

/-- Settles O20: the address is the operand word (R81). -/
theorem ldaAbsolute : Obligations.LdaAbsolute := fun w s => exec_lda_of_read rfl (liftValue_ite s w.toNat)

/-- Settles O21: the address wraps at 65536 only (R82). -/
theorem ldaAbsoluteX : Obligations.LdaAbsoluteX := by
  rintro w s ea rfl
  exact exec_lda_of_read rfl (liftValue_ite s _)

/-- Settles O22: the address wraps at 65536 only (R83). -/
theorem ldaAbsoluteY : Obligations.LdaAbsoluteY := by
  rintro w s ea rfl
  exact exec_lda_of_read rfl (liftValue_ite s _)

/-! ## Modes that read a pointer byte first -/

/-- A form that reads a pointer byte at `p`, and then the byte at the address `f` makes of it, faults at whichever of the
two addresses does not exist. -/
theorem exec_lda_of_pointer {i : Instr} {p : Nat} (f : Byte → Nat) (hA : isLda i = true)
    (hv : liftValue (effectiveValue i s) = (s.memReadAt p).bind fun pointer => s.memReadAt (f pointer)) :
    (p < s.cfg.memSize → f (Memory.read s.mem p) < s.cfg.memSize →
      exec i s = .next (s.afterLda i.length (budgetCost i) (Memory.read s.mem (f (Memory.read s.mem p))))) ∧
    (p < s.cfg.memSize → s.cfg.memSize ≤ f (Memory.read s.mem p) →
      exec i s = .fault (.memOutOfRange (f (Memory.read s.mem p)))) ∧
    (s.cfg.memSize ≤ p → exec i s = .fault (.memOutOfRange p)) := by
  have hdata (hp : p < s.cfg.memSize) :
      liftValue (effectiveValue i s) = s.memReadAt (f (Memory.read s.mem p)) := by
    rw [hv, State.memReadAt_of_lt hp, Except.bind]
  refine ⟨fun hp => (exec_lda_of_read hA (hdata hp)).1, fun hp => (exec_lda_of_read hA (hdata hp)).2, fun hp => ?_⟩
  rw [exec_lda_eq hA, hv, State.memReadAt_of_ge hp, Except.bind, load]

/-- Indexed-indirect reads its pointer at the operand plus `X` in the zero page (R84, C8). -/
theorem liftValue_effectiveValue_ldaIzx (b : Byte) (s : State) :
    liftValue (effectiveValue (.ldaIzx b) s) =
      (s.memReadAt ((b.toNat + s.x.toNat) % 256)).bind fun pointer => s.memReadAt pointer.toNat := by
  rw [← valueIzx_eq, valueIzx, eaIzx_eq_map_memReadAt]
  cases s.memReadAt ((b.toNat + s.x.toNat) % 256) with
  | ok pointer => exact s.memRead_eq_memReadAt (zext16_toNat pointer)
  | error f => rfl

/-- Indirect-indexed reads its pointer at the operand and adds `Y` to it, in the width of `INDY_WRAP8` (R85, C8, D3). -/
theorem liftValue_effectiveValue_ldaIzy (b : Byte) (s : State) :
    liftValue (effectiveValue (.ldaIzy b) s) =
      (s.memReadAt b.toNat).bind fun pointer => s.memReadAt (indySum s.cfg pointer s.y).toNat := by
  rw [← valueIzy_eq, valueIzy, eaIzy_eq_map_memReadAt]
  cases s.memReadAt b.toNat <;> rfl

/-- Settles O23: the pointer byte is itself the address. -/
theorem ldaIndexedIndirect : Obligations.LdaIndexedIndirect := by
  rintro b s p ea rfl rfl
  exact exec_lda_of_pointer BitVec.toNat rfl (liftValue_effectiveValue_ldaIzx b s)

/-- Settles O24: the address is the sum of the pointer byte and `Y`, in either width. -/
theorem ldaIndirectIndexed : Obligations.LdaIndirectIndexed := by
  rintro b s sum ea rfl hea
  obtain rfl := hea.trans (indySum_toNat s.cfg _ s.y).symm
  exact exec_lda_of_pointer (fun pointer => (indySum s.cfg pointer s.y).toNat) rfl
    (liftValue_effectiveValue_ldaIzy b s)

end Sys2Proof.Machine
end

section
/-!
LDX (43_ldx.md): the contract all five forms share, and the byte that each addressing mode loads.
-/

namespace Sys2Proof.Machine

variable {s : State}

/-! ## The contract -/

/-- The modes of LDX index with `Y` or not at all (R99), so the old `X` is in no address. -/
theorem effectiveValue_ldx_with_x {i : Instr} (hX : isLdx i = true) (s : State) (old : Byte) :
    effectiveValue i { s with x := old } = effectiveValue i s := by
  cases i with
  | ldxImm | ldxZp | ldxZpy | ldxAbs | ldxAby => rfl
  | _ => simp [isLdx] at hX

/-- The old value of `X` gives no address and is overwritten without being read (R99). -/
theorem exec_ldx_with_x {i : Instr} (hX : isLdx i = true) (s : State) (old : Byte) :
    exec i { s with x := old } = exec i s := by
  rw [exec_ldx_eq hX, exec_ldx_eq hX, effectiveValue_ldx_with_x hX]
  cases effectiveValue i s <;> rfl

/-- Settles O34: a form either has its byte or names an address that does not exist. -/
theorem everyLdxFollowsTheContract : Obligations.EveryLdxFollowsTheContract := fun _ s hX =>
  ⟨fun _ hv => exec_ldx_of_value hX hv,
    fun _ hv => ⟨(effectiveValue_error (.inr hX) hv).1, exec_load_of_error (.inr hX) hv⟩,
    exec_ldx_with_x hX s⟩

/-- Settles O25: the operand byte is the effective value (R77). -/
theorem ldxImmediate : Obligations.LdxImmediate := fun _ _ => exec_ldx_of_value rfl rfl

/-! ## Modes that read one byte -/

/-- A form whose effective value is one read completes with that byte in `X`, or faults with its address. -/
theorem exec_ldx_of_read {i : Instr} {ea : Nat} (hX : isLdx i = true)
    (hv : liftValue (effectiveValue i s) = s.memReadAt ea) :
    (ea < s.cfg.memSize → exec i s = .next (s.afterLdx i.length (budgetCost i) (Memory.read s.mem ea))) ∧
    (s.cfg.memSize ≤ ea → exec i s = .fault (.memOutOfRange ea)) := by
  rw [exec_ldx_eq hX, hv, ← State.loaded_x_eq]
  exact load_memReadAt ..

/-- Settles O26: the address is the operand byte (R78). -/
theorem ldxZeroPage : Obligations.LdxZeroPage := fun b s => exec_ldx_of_read rfl (liftValue_ite s b.toNat)

/-- Settles O27: the address wraps in the zero page (R80). -/
theorem ldxZeroPageY : Obligations.LdxZeroPageY := by
  rintro b s ea rfl
  exact exec_ldx_of_read rfl (liftValue_ite s _)

/-- Settles O28: the address is the operand word (R81). -/
theorem ldxAbsolute : Obligations.LdxAbsolute := fun w s => exec_ldx_of_read rfl (liftValue_ite s w.toNat)

/-- Settles O29: the address wraps at 65536 only (R83). -/
theorem ldxAbsoluteY : Obligations.LdxAbsoluteY := by
  rintro w s ea rfl
  exact exec_ldx_of_read rfl (liftValue_ite s _)

end Sys2Proof.Machine
end

section
/-!
The unassigned opcodes (44_unassigned_opcodes.md): the two behaviours `STRICT_OPCODES` chooses between, and that the parameter
reaches no assigned instruction.
-/

namespace Sys2Proof.Machine

variable {s t : State}

/-! ## Strict mode and the assigned instructions -/

/-- Of the parameters, an effective value depends on `MEMSIZE` and `INDY_WRAP8` only (R35, R85). -/
theorem effectiveValue_with_strictOpcodes (i : Instr) (s : State) (strict : Bool) :
    effectiveValue i { s with cfg := { s.cfg with strictOpcodes := strict } } = effectiveValue i s := rfl

/-- A load that completes leaves the same state but for the parameter itself. -/
theorem exec_next_with_strictOpcodes {i : Instr} (hi : IsAssigned i) (strict : Bool) (h : exec i s = .next t) :
    exec i { s with cfg := { s.cfg with strictOpcodes := strict } } =
      .next { t with cfg := { t.cfg with strictOpcodes := strict } } := by
  have hsame := effectiveValue_with_strictOpcodes i s strict
  rcases exec_next_cases h with ⟨hA, v, hv, rfl⟩ | ⟨hX, v, hv, rfl⟩ | ⟨op, hop, -, -⟩
  · exact exec_lda_of_value hA (hsame.trans hv)
  · exact exec_ldx_of_value hX (hsame.trans hv)
  · exact absurd hop (hi op)

/-- A load that faults finds the same address missing. -/
theorem exec_fault_with_strictOpcodes {i : Instr} {f : Fault} (hi : IsAssigned i) (strict : Bool)
    (h : exec i s = .fault f) : exec i { s with cfg := { s.cfg with strictOpcodes := strict } } = .fault f := by
  have hload := isLda_or_isLdx_of_isAssigned hi
  obtain ⟨addr, hv, rfl⟩ := (exec_load_fault_iff hload).1 h
  exact exec_load_of_error hload ((effectiveValue_with_strictOpcodes i s strict).trans hv)

/-- Settles O32: an assigned instruction is a load, and the parameter is in no effective value. -/
theorem strictModeChangesNoAssignedInstruction : Obligations.StrictModeChangesNoAssignedInstruction :=
  fun _ _ strict hi =>
    ⟨fun _ => exec_next_with_strictOpcodes hi strict, fun _ => exec_fault_with_strictOpcodes hi strict⟩

/-! ## The unassigned opcode under each setting -/

/-- Settles O30: with strict mode off the byte is the idle cycle (R106). -/
theorem unassignedOpcodeIdles : Obligations.UnassignedOpcodeIdles :=
  fun _ _ hs => ⟨rfl, by simp [exec_unassigned_eq, hs]⟩

/-- Settles O31: of the two settings, strict mode is the one that stops (R107). -/
theorem unassignedOpcodeFailsFastInStrictMode : Obligations.UnassignedOpcodeFailsFastInStrictMode :=
  fun _ _ hs => exec_unassigned_fault_iff.2 ⟨hs, rfl⟩

end Sys2Proof.Machine
end

section
/-!
The host and the lifecycle (70_reset_and_hazards.md R125 to R133): what a command leaves, that the host has no move during a
run, and the arrows a step can take.
-/

namespace Sys2Proof.Machine

variable {s t : State}

/-! ## Commands that a lifecycle state admits or refuses -/

/-- A unit that is neither running nor destroyed admits `reset` and every write. -/
theorem hostRefusal_eq_none_of_not_needsReset {l : Lifecycle} {op : HostOp} (hop : op.needsReset = false)
    (hl : l = .uninitialized ∨ l = .reset ∨ l = .haltedByBudget) : hostRefusal l op = none := by
  rcases hl with rfl | rfl | rfl
  · exact if_neg (by simp [hop])
  · rfl
  · rfl

/-- No command is admitted during a run or after `destroy`. -/
theorem lifecycle_of_hostRefusal_eq_none {l : Lifecycle} {op : HostOp} (h : hostRefusal l op = none) :
    l = .uninitialized ∨ l = .reset ∨ l = .haltedByBudget := by
  cases l with
  | running r c => exact absurd rfl (not_running_of_hostRefusal_eq_none h r c)
  | destroyed => simp [hostRefusal] at h
  | _ => simp

/-- A command that needs defined contents is admitted between runs alone (R26, R128). -/
theorem lifecycle_of_hostRefusal_eq_none_of_needsReset {l : Lifecycle} {op : HostOp} (hop : op.needsReset = true)
    (h : hostRefusal l op = none) : l = .reset ∨ l = .haltedByBudget := by
  refine (lifecycle_of_hostRefusal_eq_none h).resolve_left ?_
  rintro rfl
  simp [hostRefusal, hop] at h

theorem step_of_admitted {op : HostOp} {rest : List HostOp} (hadm : hostRefusal s.lifecycle op = none)
    (hh : s.host = op :: rest) : step s = State.performAdmitted op { s with host := rest } := by
  rw [step_of_host_cons (not_running_of_hostRefusal_eq_none hadm) hh, State.perform, hadm]

/-- Settles O2: `reset` needs no defined contents. -/
theorem resetCommandForgetsThePreviousState : Obligations.ResetCommandForgetsThePreviousState :=
  fun _ _ hh hl => step_of_admitted (hostRefusal_eq_none_of_not_needsReset rfl hl) hh

/-- Settles O56: the row of R125 for `Destroyed` refuses, and `destroy` needs no defined contents. -/
theorem destroyedUnitRefusesEverything : Obligations.DestroyedUnitRefusesEverything := by
  refine fun s op rest hh => ⟨fun hl => ?_, ?_⟩
  · rw [step_of_host_cons (by simp [hl]) hh, State.perform, hl]
    rfl
  · rintro rfl hl
    exact step_of_admitted (hostRefusal_eq_none_of_not_needsReset rfl hl) hh

/-! ## A write and the read of what it wrote -/

/-- Between runs a command that leaves the lifecycle state is followed by the next. -/
theorem steps_two_of_idle {op op' : HostOp} {rest : List HostOp} (hi : s.Idle) (hh : s.host = op :: op' :: rest)
    (hop : State.performAdmitted op { s with host := op' :: rest } = .next t) (hl : t.lifecycle = s.lifecycle)
    (hh' : t.host = op' :: rest) : steps 2 s = State.performAdmitted op' { t with host := rest } := by
  have hi' : t.Idle := by simpa only [State.Idle, hl] using hi
  rw [steps_succ ((step_of_idle hi hh).trans hop), steps_one, step_of_idle hi' hh']

/-- Settles O53: the write leaves the lifecycle state, so the read is admitted after it. -/
theorem hostProgramCounterAccess : Obligations.HostProgramCounterAccess :=
  fun _ _ _ hi hh => steps_two_of_idle hi hh rfl rfl rfl

theorem State.writeReg_with_host (s : State) (r : Reg8) (v : Byte) (later : List HostOp) :
    ({ s with host := later } : State).writeReg r v = { s.writeReg r v with host := later } := by
  cases r <;> rfl

/-- Settles O52, from the laws of `writeReg`: the read and the answer touch no register. -/
theorem hostRegisterAccess : Obligations.HostRegisterAccess := by
  intro s r v rest hi hh
  have hwrite : State.performAdmitted (.writeReg r v) { s with host := .readReg r :: rest } =
      .next { s.writeReg r v with host := .readReg r :: rest, answer := none } := by
    rw [State.performAdmitted, State.writeReg_with_host]
  have hsteps : steps 2 s =
      .next { s.writeReg r v with host := rest, answer := some (.byte ((s.writeReg r v).readReg r)) } :=
    (steps_two_of_idle hi hh hwrite (State.writeReg_lifecycle ..) rfl).trans rfl
  rw [State.readReg_writeReg_same] at hsteps
  refine ⟨_, hsteps, rfl, State.readReg_writeReg_same .., fun _ hne => State.readReg_writeReg_other _ hne v, ?_⟩
  exact ⟨State.writeReg_pc .., State.writeReg_flags .., State.writeReg_mem .., State.writeReg_cfg ..,
    State.writeReg_lifecycle .., rfl⟩

theorem performAdmitted_readMem_of_lt {addr : Nat} (h : addr < s.cfg.memSize) :
    State.performAdmitted (.readMem addr) s = .next { s with answer := some (.byte (Memory.read s.mem addr)) } := by
  rw [State.performAdmitted, State.memReadAt_of_lt h]

theorem performAdmitted_writeMem_of_lt {addr : Nat} (h : addr < s.cfg.memSize) (v : Byte) :
    State.performAdmitted (.writeMem addr v) s =
      .next { s with mem := Memory.write s.mem addr v, answer := none } := by
  rw [State.performAdmitted, State.memWriteAt_of_lt h]

/-- Settles O50, from the laws of `Memory.write` on contents in canonical form. -/
theorem hostReadsTheByteItWrote : Obligations.HostReadsTheByteItWrote := by
  intro s addr v rest hi hwf hlt hh
  have hread : Memory.read (Memory.write s.mem addr v) addr = v := Memory.read_write_same s.mem addr v hwf
  have hwrite := performAdmitted_writeMem_of_lt (s := { s with host := .readMem addr :: rest }) hlt v
  have hsteps := steps_two_of_idle hi hh hwrite rfl rfl
  refine ⟨Memory.write s.mem addr v, hsteps.trans ?_, fun other hne => Memory.read_write_other s.mem hne v⟩
  exact Eq.trans (performAdmitted_readMem_of_lt hlt) (by rw [hread])

/-! ## The host during a run -/

theorem exec_host {i : Instr} (h : exec i s = .next t) : t.host = s.host := by
  rcases exec_next_cases h with ⟨-, v, -, rfl⟩ | ⟨-, v, -, rfl⟩ | ⟨op, -, -, rfl⟩
  · exact State.afterLda_host ..
  · exact State.afterLdx_host ..
  · exact State.afterIdle_host ..

/-- No effective value depends on the commands to come. -/
theorem effectiveValue_with_host (i : Instr) (s : State) (later : List HostOp) :
    effectiveValue i { s with host := later } = effectiveValue i s := rfl

/-- An instruction does the same with other commands to come. -/
theorem exec_with_host {i : Instr} (later : List HostOp) (h : exec i s = .next t) :
    exec i { s with host := later } = .next { t with host := later } := by
  have hsame := effectiveValue_with_host i s later
  rcases exec_next_cases h with ⟨hA, v, hv, rfl⟩ | ⟨hX, v, hv, rfl⟩ | ⟨op, rfl, hstrict, rfl⟩
  · exact exec_lda_of_value hA (hsame.trans hv)
  · exact exec_ldx_of_value hX (hsame.trans hv)
  · exact (unassignedOpcodeIdles op { s with host := later } hstrict).2

/-- Settles O49, by what a step of a run can be: an instruction, or the end of the run. -/
theorem hostHasNoMoveDuringARun : Obligations.HostHasNoMoveDuringARun := by
  intro s t remaining completed later hl h
  rcases step_next_cases h with ⟨r, c, bs, i, hl', hr, hb, hd, he⟩ | ⟨r, c, hl', hr, rfl⟩ | ⟨hn, -⟩
  · have hb' := hb.congr (t := { s with host := later }) rfl rfl
    exact ⟨exec_host he, Eq.trans (step_eq_exec hl' hr hb' hd) (exec_with_host later he)⟩
  · exact ⟨State.finishRun_host .., runEndReturnsCompleted { s with host := later } r c hl' hr⟩
  · exact absurd hl (hn remaining completed)

/-! ## The arrows of the lifecycle -/

/-- An instruction counts all it takes from the budget, or is an idle cycle (R65, R67). -/
theorem countedCost_eq_budgetCost_or_idle (i : Instr) :
    countedCost i = budgetCost i ∨ (budgetCost i = 1 ∧ countedCost i = 0) := by
  rcases isLda_or_isLdx_or_unassigned i with hload | ⟨op, rfl⟩
  · exact .inl (countedCost_eq_budgetCost hload)
  · exact .inr ⟨rfl, rfl⟩

theorem exec_arrow {i : Instr} {r : Int} {c : Nat} (hl : s.lifecycle = .running r c) (hr : 0 < r)
    (h : exec i s = .next t) : Lifecycle.Arrow s.lifecycle t.lifecycle := by
  obtain ⟨hlow, hhigh⟩ := budgetCost_bounds i
  rw [exec_lifecycle h, hl]
  exact .turn r c _ _ hr hlow hhigh (countedCost_eq_budgetCost_or_idle i)

theorem hostReset_arrow (hl : s.lifecycle = .uninitialized ∨ s.lifecycle = .reset ∨ s.lifecycle = .haltedByBudget) :
    Lifecycle.Arrow s.lifecycle s.hostReset.lifecycle := by
  rcases hl with hl | hl | hl <;> rw [hl]
  · exact .resetUninitialized
  · exact .stay .reset (by simp)
  · exact .resetHalted

theorem startRun_arrow (hi : s.Idle) (b : Int) : Lifecycle.Arrow s.lifecycle (s.startRun b).lifecycle := by
  rcases hi with hl | hl <;> rw [hl]
  · exact .runFromReset b
  · exact .runAgain b

theorem destroy_arrow (hl : s.lifecycle = .uninitialized ∨ s.lifecycle = .reset ∨ s.lifecycle = .haltedByBudget) :
    Lifecycle.Arrow s.lifecycle s.destroy.lifecycle := by
  rcases hl with hl | hl | hl <;> rw [hl]
  · exact .destroyUninitialized
  · exact .destroyReset
  · exact .destroyHalted

/-- A command takes the arrow drawn for it; an access of the host leaves the lifecycle state. -/
theorem perform_arrow {op : HostOp} (h : State.perform op s = .next t) :
    Lifecycle.Arrow s.lifecycle t.lifecycle := by
  obtain ⟨hadm, hcases⟩ := perform_next_cases h
  have hstay : Lifecycle.Arrow s.lifecycle s.lifecycle := .stay _ (not_running_of_hostRefusal_eq_none hadm)
  obtain ⟨-, rfl⟩ | ⟨b, rfl, rfl⟩ | ⟨-, rfl⟩ | ⟨addr, -, -, rfl⟩ | ⟨addr, v, -, -, rfl⟩ | ⟨r, -, rfl⟩ |
    ⟨r, v, -, rfl⟩ | ⟨-, rfl⟩ | ⟨v, -, rfl⟩ | ⟨f, -, rfl⟩ | ⟨f, v, -, rfl⟩ := hcases
  case inl => exact hostReset_arrow (lifecycle_of_hostRefusal_eq_none hadm)
  case inr.inl => exact startRun_arrow (lifecycle_of_hostRefusal_eq_none_of_needsReset rfl hadm) b
  case inr.inr.inl => exact destroy_arrow (lifecycle_of_hostRefusal_eq_none hadm)
  all_goals simpa using hstay

/-- Settles O57, by what a step can be: an instruction, the end of a run, no command to come, or a command. -/
theorem lifecycleFollowsItsArrows : Obligations.LifecycleFollowsItsArrows := by
  intro s t h
  rcases step_next_cases h with ⟨r, c, bs, i, hl, hr, -, -, he⟩ | ⟨r, c, hl, hr, rfl⟩ |
    ⟨hn, ⟨-, rfl⟩ | ⟨op, rest, -, hp⟩⟩
  · exact exec_arrow hl hr he
  · exact hl ▸ .halt r c hr
  · exact .stay _ hn
  · exact perform_arrow (s := { s with host := rest }) hp

end Sys2Proof.Machine
end
